-- ==== Sys2Proof/Word.lean ====
section
/-! DEFINITION. The word type of the hardware (R6, R12, R27): a 16-bit pattern. -/

namespace Sys2Proof

/-- A 16-bit pattern: a register, a memory word, an instruction word (R6). -/
abbrev Word := BitVec 16

/-- The 12 low bits of an instruction word (R61). -/
abbrev Field := BitVec 12

end Sys2Proof
end

