-- ==== Sys2Proof/Syntax.lean ====
section
/-! DEFINITION. The 13 instructions (R67), each with all the bits of its word that its format does not fix (R62). -/

namespace Sys2Proof

/-- The closed enumeration of 13 opcodes (R67). -/
inductive Opcode where
  | jumpAndStore | load | store | add | subtract | input | output | halt | skipCond | jump | clear | addIndirect
  | jumpIndirect
deriving DecidableEq, Repr

/-- The condition a SkipCond selects (R64, R150). -/
inductive SkipSel where
  /-- selector 00: skip if AC < 0 -/
  | ltZero
  /-- selector 01: skip if AC = 0 -/
  | eqZero
  /-- selector 10: skip if AC > 0 -/
  | gtZero
  /-- selector 11: "unused/no-op" (R70) -/
  | never
deriving DecidableEq, Repr

/-- An instruction. `x` is the word address of format A. `ign` is the ignored bits of formats N and S: no handler uses
them (R69), but the decode copies bits 11:0 into `MAR` whatever the format (R92), so they are kept. -/
inductive Instr where
  | jumpAndStore (x : Field)
  | load (x : Field)
  | store (x : Field)
  | add (x : Field)
  | subtract (x : Field)
  | input (ign : Field)
  | output (ign : Field)
  | halt (ign : Field)
  | skipCond (sel : SkipSel) (ign : BitVec 10)
  | jump (x : Field)
  | clear (ign : Field)
  | addIndirect (x : Field)
  | jumpIndirect (x : Field)
deriving DecidableEq, Repr

/-- The pair that the document's `decode` gives and its `encode` takes (R63, R65): an opcode code and an operand. -/
structure Fields where
  code : Nat
  operand : Nat
deriving DecidableEq, Repr

end Sys2Proof
end

