-- ==== Sys2Proof/Decode.lean ====
section
/-! DEFINITION. Decode and encode (R61 to R70), with the opcode table as rows of mask and pattern. -/

namespace Sys2Proof

/-- `u16(n)` of R7: the unique 16-bit value congruent to `n` modulo 65536. -/
def u16 (n : Int) : Word := BitVec.ofInt 16 n

/-- `zext_16` of R7, for the 12-bit field. -/
def zext16 (x : Field) : Word := x.setWidth 16

/-- `w[15:12]` (R61). -/
def opcodeBits (w : Word) : BitVec 4 := w.extractLsb' 12 4

/-- `w[11:0]` (R61). -/
def fieldBits (w : Word) : Field := w.extractLsb' 0 12

/-- `field[11:10]`, which R64 says is `w[11:10]`. -/
def selBits (x : Field) : BitVec 2 := x.extractLsb' 10 2

/-- `field[9:0]`, ignored by SkipCond (R62). -/
def ignoredBits (x : Field) : BitVec 10 := x.extractLsb' 0 10

/-- A selector in bits 11:10 of a field and the ignored bits below it (R62, format S). -/
def joinSelector (sel : BitVec 2) (ign : BitVec 10) : Field := (sel.setWidth 12 <<< 10) ||| ign.setWidth 12

/-- A code in bits 15:12 of a word and a field below it (R65). -/
def joinOpcode (code : BitVec 4) (x : Field) : Word := (code.setWidth 16 <<< 12) ||| x.setWidth 16

/-- The opcode of an instruction. -/
def Instr.opcode : Instr → Opcode
  | .jumpAndStore _ => .jumpAndStore
  | .load _ => .load
  | .store _ => .store
  | .add _ => .add
  | .subtract _ => .subtract
  | .input _ => .input
  | .output _ => .output
  | .halt _ => .halt
  | .skipCond _ _ => .skipCond
  | .jump _ => .jump
  | .clear _ => .clear
  | .addIndirect _ => .addIndirect
  | .jumpIndirect _ => .jumpIndirect

/-- The fixed code of an opcode (R67). -/
def Opcode.code : Opcode → BitVec 4
  | .jumpAndStore => 0
  | .load => 1
  | .store => 2
  | .add => 3
  | .subtract => 4
  | .input => 5
  | .output => 6
  | .halt => 7
  | .skipCond => 8
  | .jump => 9
  | .clear => 10
  | .addIndirect => 11
  | .jumpIndirect => 12

/-- The two bits of a selector (R150). -/
def SkipSel.bits : SkipSel → BitVec 2
  | .ltZero => 0
  | .eqZero => 1
  | .gtZero => 2
  | .never => 3

/-- Bits 11:0 of an instruction's word (R62). -/
def Instr.field : Instr → Field
  | .jumpAndStore x => x
  | .load x => x
  | .store x => x
  | .add x => x
  | .subtract x => x
  | .input ign => ign
  | .output ign => ign
  | .halt ign => ign
  | .skipCond sel ign => joinSelector sel.bits ign
  | .jump x => x
  | .clear ign => ign
  | .addIndirect x => x
  | .jumpIndirect x => x

/-- R63: "opcode-code = word >> 12; field = word & 0xFFF", for every word. -/
def decodeFields (w : Word) : Fields := ⟨(w >>> 12).toNat, (w &&& 0x0FFF#16).toNat⟩

/-- The opcode bound to a code (R67); `none` for 13, 14, 15. -/
def Opcode.ofCode (c : BitVec 4) : Option Opcode :=
  match c.toNat with
  | 0 => some .jumpAndStore
  | 1 => some .load
  | 2 => some .store
  | 3 => some .add
  | 4 => some .subtract
  | 5 => some .input
  | 6 => some .output
  | 7 => some .halt
  | 8 => some .skipCond
  | 9 => some .jump
  | 10 => some .clear
  | 11 => some .addIndirect
  | 12 => some .jumpIndirect
  | _ => none

/-- The condition of a selector (R150). -/
def SkipSel.ofBits (b : BitVec 2) : SkipSel :=
  match b.toNat with
  | 0 => .ltZero
  | 1 => .eqZero
  | 2 => .gtZero
  | _ => .never

/-- The instruction of an opcode and a field (R62). -/
def Instr.ofFields (o : Opcode) (x : Field) : Instr :=
  match o with
  | .jumpAndStore => .jumpAndStore x
  | .load => .load x
  | .store => .store x
  | .add => .add x
  | .subtract => .subtract x
  | .input => .input x
  | .output => .output x
  | .halt => .halt x
  | .skipCond => .skipCond (SkipSel.ofBits (selBits x)) (ignoredBits x)
  | .jump => .jump x
  | .clear => .clear x
  | .addIndirect => .addIndirect x
  | .jumpIndirect => .jumpIndirect x

/-- What the decode of a word answers. -/
inductive Decoded where
  | instr (i : Instr)
  /-- the code is 13, 14 or 15: "undefined opcodes" (R68) -/
  | undefinedOpcode (code : BitVec 4)
deriving DecidableEq, Repr

/-- The decoder, total on 16-bit words (R63, R67, R68). -/
def decode (w : Word) : Decoded :=
  match Opcode.ofCode (opcodeBits w) with
  | some o => .instr (Instr.ofFields o (fieldBits w))
  | none => .undefinedOpcode (opcodeBits w)

/-- The word of an instruction: the code in bits 15:12, the field in bits 11:0 (R62, R67). -/
def encode (i : Instr) : Word := joinOpcode i.opcode.code i.field

/-- R65, for an opcode code or for none (a data word): the operand is cut to 12 bits, a data literal to 16. -/
def encodeWord (code : Option Nat) (operand : Int) : Word :=
  match code with
  | some c => (BitVec.ofNat 16 c <<< 12) ||| (u16 operand &&& 0x0FFF#16)
  | none => u16 operand

/-- A row of the opcode map (R67): a word is the row's when `w &&& mask = pattern`. -/
structure OpcodeRow where
  mask : Word
  pattern : Word
  opcode : Opcode
deriving DecidableEq, Repr

/-- The opcode map of R67, with the mask and the match values of spec/opcode_table.json. -/
def opcodeTable : List OpcodeRow :=
  [⟨0xF000#16, 0x0000#16, .jumpAndStore⟩, ⟨0xF000#16, 0x1000#16, .load⟩, ⟨0xF000#16, 0x2000#16, .store⟩,
   ⟨0xF000#16, 0x3000#16, .add⟩, ⟨0xF000#16, 0x4000#16, .subtract⟩, ⟨0xF000#16, 0x5000#16, .input⟩,
   ⟨0xF000#16, 0x6000#16, .output⟩, ⟨0xF000#16, 0x7000#16, .halt⟩, ⟨0xF000#16, 0x8000#16, .skipCond⟩,
   ⟨0xF000#16, 0x9000#16, .jump⟩, ⟨0xF000#16, 0xA000#16, .clear⟩, ⟨0xF000#16, 0xB000#16, .addIndirect⟩,
   ⟨0xF000#16, 0xC000#16, .jumpIndirect⟩]

/-- The instruction the decoder reads from a word numbered as spec/opcode_table.json numbers it: every instruction is one
16-bit word (R60), and a bit above `nbits` is 0. -/
def decodeTableWord (nbits w : Nat) : Option Instr :=
  match decode (BitVec.ofNat 16 (w % 2 ^ nbits)) with
  | .instr i => some i
  | .undefinedOpcode _ => none

end Sys2Proof
end

