-- ==== Sys2Proof/Config.lean ====
section
/-! DEFINITION. The parameters of R5 that a rule of the core reads, and the one free value. -/

namespace Sys2Proof.Config

/-- `MEM_WORDS` (R5, R27): addresses 0 to 511. -/
def memWords : Nat := 512

/-- `NUM_OPCODES` (R5, R67): codes 0 to 12 are defined. -/
def numOpcodes : Nat := 13

/-- `RESET_PC` (R5, R211). -/
def resetPc : Word := 1

/-- `RESET_OTHER` (R5): the other six registers. The source states none; the spec's decision D3 says 0 (log entry 1). -/
def resetOther : Word := 0

/-- What a memory word holds before anything writes it (R31: "512 words, zero-initialized"). -/
def unwrittenWord : Word := 0

/-- `LOAD_BASE` (R5, R212): the address of the first image word. -/
def loadBase : Nat := 1

/-- `MAX_IMAGE_WORDS` (R5, R212). -/
def maxImageWords : Nat := 511

/-- FREE VALUE (log entry 4). R16 leaves 65535 + 1 in `PC` undefined on purpose; no step computes it. -/
opaque pcPastTop : Word

/-- Default of the OPEN parameter `IS_ALPHA` (R164): the ASCII letters. PRESUMED (the spec's G4; log entry 8); only the
host's rendering of an output reads it. -/
def isAlphaDefault (n : Int) : Bool :=
  (decide (65 ≤ n) && decide (n ≤ 90)) || (decide (97 ≤ n) && decide (n ≤ 122))

end Sys2Proof.Config
end

