-- ==== Sys2Proof/Machine/State.lean ====
section
/-! DEFINITION. The state of the machine (R10), the reasons a step could stop, and the state after reset (R31). -/

namespace Sys2Proof.Machine

/-- `RUN` (R23). -/
inductive RunState where
  | running | halted | faulted
deriving DecidableEq, Repr

/-- `FAULT_CAUSE` (R24). -/
inductive FaultCause where
  | none | illegalOpcode | memBounds
deriving DecidableEq, Repr

/-- `FAULT_KIND` (R24): which access failed. -/
inductive FaultKind where
  | none | fetch | read | write
deriving DecidableEq, Repr

/-- One memory word at its word address. The smallest addressable unit is the 16-bit word (R26, R45; log entry 7). -/
abbrev MemCell := Nat × Word

/-- The word memory: the words that differ from what an unwritten word reads, by rising address (log entry 7). -/
abbrev Memory := List MemCell

/-- The machine's state: R10's tuple, and `inputWait`. -/
structure State where
  ac : Word
  mar : Word
  mbr : Word
  pc : Word
  ir : Word
  inReg : Word
  outReg : Word
  run : RunState
  faultCause : FaultCause
  faultInfo : Word
  faultKind : FaultKind
  /-- `M` (R27) -/
  mem : Memory
  /-- `IN` (R29): the values the host has supplied and the core has not taken, the next one first -/
  inStream : List Word
  /-- `OUT` (R29): the values emitted, the oldest first -/
  outTrace : List Word
  /-- the core waits inside an Input step for a value (R95, R162; log entry 3) -/
  inputWait : Bool
deriving DecidableEq, Repr

/-- What `raise` is given (R180). -/
inductive Raise where
  /-- raised by the decode; carries the instruction word `IR` (R181) -/
  | illegalOpcode (ir : Word)
  /-- raised by an access; carries the offending address and the access (R182) -/
  | memBounds (address : Word) (kind : FaultKind)
deriving DecidableEq, Repr

/-- A stop that is no state of the hardware. There is none: both faults of R180 leave a state the spec gives (R98), so they
are next states with `RUN = Faulted`, and no instruction lacks an effect. Nothing raises a value of this type. -/
inductive Fault where
deriving DecidableEq, Repr

/-- Why a meaning is missing. -/
inductive Refusal where
  /-- raised by an arm of `exec` whose instruction has no meaning yet: safe. No arm does. -/
  | notModelled (mnemonic : String)
deriving DecidableEq, Repr

/-- What a step or a meaning answers. -/
abbrev Result := Host.Outcome State Fault Refusal

/-- The machine right after reset (R31, R210), before any load. `IN` is free in the spec: log entry 2. -/
def State.reset : State where
  ac := Config.resetOther
  mar := Config.resetOther
  mbr := Config.resetOther
  pc := Config.resetPc
  ir := Config.resetOther
  inReg := Config.resetOther
  outReg := Config.resetOther
  run := .running
  faultCause := .none
  faultInfo := 0
  faultKind := .none
  mem := []
  inStream := []
  outTrace := []
  inputWait := false

end Sys2Proof.Machine
end

