-- ==== Sys2Proof/Machine/Ops.lean ====
section
/-! DEFINITION. The shared operations: the word memory and its two primitives (R40 to R43), the increment of `PC`, raising a
fault (R183), the fetch (R91), the decode's write of `MAR` (R92) and its undefined-opcode fault (R93). -/

namespace Sys2Proof.Machine

/-- `M[a]`: an unlisted address holds what an unwritten word holds (R31, R41). -/
def Memory.get (m : Memory) (a : Nat) : Word :=
  match m with
  | [] => Config.unwrittenWord
  | (b, v) :: rest => if a = b then v else Memory.get rest a

/-- Put a cell in front of the first cell of a higher address. -/
def Memory.insertCell (m : Memory) (a : Nat) (v : Word) : Memory :=
  match m with
  | [] => [(a, v)]
  | (b, w) :: rest => if a < b then (a, v) :: (b, w) :: rest else (b, w) :: Memory.insertCell rest a v

/-- Drop what is listed for an address. -/
def Memory.erase (m : Memory) (a : Nat) : Memory :=
  match m with
  | [] => []
  | (b, w) :: rest => if a = b then Memory.erase rest a else (b, w) :: Memory.erase rest a

/-- `M[a] <- v`, all 16 bits (R42), in canonical form: the value of an unwritten word is not listed. -/
def Memory.set (m : Memory) (a : Nat) (v : Word) : Memory :=
  if v = Config.unwrittenWord then m.erase a else (m.erase a).insertCell a v

/-- Every listed address is above `bound`, and the addresses rise. -/
def Memory.risesAbove (bound : Nat) (m : Memory) : Bool :=
  match m with
  | [] => true
  | (b, _) :: rest => decide (bound < b) && Memory.risesAbove b rest

/-- The listed addresses rise. -/
def Memory.rises (m : Memory) : Bool :=
  match m with
  | [] => true
  | (b, _) :: rest => Memory.risesAbove b rest

/-- The canonical form: addresses rise strictly and name words that exist (R27), and no entry is an unwritten word's value. -/
def Memory.wf (m : Memory) : Bool :=
  m.rises && m.all (fun c => decide (c.1 < Config.memWords) && decide (c.2 ≠ Config.unwrittenWord))

/-- The memory's side of `MemRead` (R41, R43, R44): an error return outside [0, 512). -/
def Memory.read? (m : Memory) (a : Word) : Option Word :=
  if a.toNat < Config.memWords then some (m.get a.toNat) else none

/-- The memory's side of `MemWrite` (R42, R43, R44). -/
def Memory.write? (m : Memory) (a v : Word) : Option Memory :=
  if a.toNat < Config.memWords then some (m.set a.toNat v) else none

/-- An increment of `PC`. 65535 + 1 is undefined on purpose (R16) and no step computes it: log entry 4. -/
def pcSucc (pc : Word) : Word := if pc = 0xFFFF#16 then Config.pcPastTop else pc + 1

/-- The cause a raise records (R180). -/
def Raise.cause : Raise → FaultCause
  | .illegalOpcode _ => .illegalOpcode
  | .memBounds _ _ => .memBounds

/-- The `FAULT_INFO` a raise records (R180). -/
def Raise.info : Raise → Word
  | .illegalOpcode ir => ir
  | .memBounds a _ => a

/-- The `FAULT_KIND` a raise records (R180). -/
def Raise.kind : Raise → FaultKind
  | .illegalOpcode _ => .none
  | .memBounds _ k => k

/-- TAKING A FAULT (R183): what the step has written stays, `RUN <- Faulted`, the record is written, and that is all. There is
no return from it (R185): the one way out is `State.reset`. -/
def raise (r : Raise) (s : State) : State :=
  { s with run := .faulted, faultCause := r.cause, faultInfo := r.info, faultKind := r.kind }

/-- `MemRead(a, 1)` (R41), with what the step does with the word. -/
def memRead (kind : FaultKind) (a : Word) (s : State) (andThen : Word → Result) : Result :=
  match s.mem.read? a with
  | some v => andThen v
  | none => .next (raise (.memBounds a kind) s)

/-- `MemWrite(a, 1, v)` (R42), with what the step does after it. -/
def memWrite (a v : Word) (s : State) (andThen : State → Result) : Result :=
  match s.mem.write? a v with
  | some m => andThen { s with mem := m }
  | none => .next (raise (.memBounds a .write) s)

/-- What a fetch that read `w` leaves: `MAR <- PC; MBR <- w; IR <- MBR; PC <- PC + 1` (R90, R91). -/
def fetched (w : Word) (s : State) : State :=
  { s with mar := s.pc, mbr := w, ir := w, pc := pcSucc s.pc }

/-- The fetch (R91). When its read fails, `MAR` has been written and `MBR`, `IR`, `PC` keep their values. -/
def fetch (s : State) (andThen : State → Result) : Result :=
  memRead .fetch s.pc { s with mar := s.pc } fun w => andThen (fetched w s)

/-- The decode's `MAR <- zext_16(IR[11:0])` (R92), for a field `x`. -/
def latchField (x : Field) (s : State) : State := { s with mar := zext16 x }

/-- The decode of an undefined opcode (R93): `MAR` is written first, then the fault is raised. -/
def illegalOpcode (s : State) : Result :=
  .next (raise (.illegalOpcode s.ir) (latchField (fieldBits s.ir) s))

/-- In a terminal state no step is taken: nothing changes (R23; log entry 6). -/
def terminalStep (s : State) : Result := .next s

end Sys2Proof.Machine
end

