-- ==== Sys2Proof/Machine/Operands.lean ====
section
/-! DEFINITION. The two addressing modes (R113). There is no other operand form. -/

namespace Sys2Proof.Machine

/-- Direct: the effective address is the field, which the decode has put into `MAR`. -/
def directAddress (s : State) : Word := s.mar

/-- The word at the direct address. -/
def directOperand (s : State) (andThen : Word → Result) : Result :=
  memRead .read (directAddress s) s andThen

/-- Indirect: the word at the direct address is the effective address, all 16 bits of it; it is not put into `MAR`. -/
def indirectOperand (s : State) (andThen : Word → Result) : Result :=
  directOperand s fun p => memRead .read p s andThen

end Sys2Proof.Machine
end

