-- ==== Sys2Proof/Machine/Arithmetic.lean ====
section
/-! DEFINITION. Add, Subtract, Clear and AddIndirect. The sum and the difference are those of 16-bit patterns: the exact result
modulo 65536 (R121; `OVF_POLICY = wrap`, R123, log entry 5). -/

namespace Sys2Proof.Machine

/-- `x + y` of R121. -/
def addWords (x y : Word) : Word := x + y

/-- `x - y` of R121. -/
def subWords (x y : Word) : Word := x - y

/-- R124: `v <- MemRead(MAR, 1); AC <- u16(AC + v)`. -/
def execAdd (x : Field) (s : State) : Result :=
  let t := latchField x s
  directOperand t fun v => .next { t with ac := addWords t.ac v }

/-- R125: `v <- MemRead(MAR, 1); AC <- u16(AC - v)`. -/
def execSubtract (x : Field) (s : State) : Result :=
  let t := latchField x s
  directOperand t fun v => .next { t with ac := subWords t.ac v }

/-- R126: `AC <- 0`. -/
def execClear (ign : Field) (s : State) : Result :=
  .next { latchField ign s with ac := 0 }

/-- R127: `p <- MemRead(MAR, 1); v <- MemRead(p, 1); AC <- u16(AC + v)`. -/
def execAddIndirect (x : Field) (s : State) : Result :=
  let t := latchField x s
  indirectOperand t fun v => .next { t with ac := addWords t.ac v }

end Sys2Proof.Machine
end

