-- ==== Sys2Proof/Machine/Flags.lean ====
section
/-! DEFINITION. The hardware has no flags (R22). What stands here are the tests of a value's sign: the signed reading (R7), the
conditions of SkipCond (R150), and R121's notion of a signed overflow, which no instruction records. -/

namespace Sys2Proof.Machine

/-- `s16(w)` of R7. -/
def s16 (w : Word) : Int := if w.toNat < 32768 then w.toNat else w.toNat - 65536

/-- Whether SkipCond skips, for the value of `AC` (R150, R151). -/
def skipTaken (sel : SkipSel) (ac : Word) : Bool :=
  match sel with
  | .ltZero => decide (s16 ac < 0)
  | .eqZero => decide (ac = 0)
  | .gtZero => decide (0 < s16 ac)
  | .never => false

/-- Whether an exact signed result is outside -32768..32767 (R121). -/
def overflows (exact : Int) : Bool := decide (exact < -32768) || decide (32767 < exact)

end Sys2Proof.Machine
end

