-- ==== Sys2Proof/Machine/Control.lean ====
section
/-! DEFINITION. Jump, JumpIndirect, JumpAndStore and SkipCond. A target is not checked when `PC` is written (R155): the next
fetch finds it. -/

namespace Sys2Proof.Machine

/-- R140: `pc <- MAR`. -/
def execJump (x : Field) (s : State) : Result :=
  let t := latchField x s
  .next { t with pc := directAddress t }

/-- R143: `pc <- MemRead(MAR, 1)`, all 16 bits of the word. -/
def execJumpIndirect (x : Field) (s : State) : Result :=
  let t := latchField x s
  directOperand t fun v => .next { t with pc := v }

/-- R146: `MemWrite(MAR, 1, PC); pc <- MAR + 1`. `PC` is changed only if the write succeeded. -/
def execJumpAndStore (x : Field) (s : State) : Result :=
  let t := latchField x s
  memWrite (directAddress t) t.pc t fun u => .next { u with pc := pcSucc u.mar }

/-- R150: `if take then pc <- PC + 1`. No access is made. -/
def execSkipCond (sel : SkipSel) (ign : BitVec 10) (s : State) : Result :=
  let t := latchField (joinSelector sel.bits ign) s
  .next (if skipTaken sel t.ac then { t with pc := pcSucc t.pc } else t)

end Sys2Proof.Machine
end

