-- ==== Sys2Proof/Machine/InputOutput.lean ====
section
/-! DEFINITION. Input, Output and Halt, and the two ports. -/

namespace Sys2Proof.Machine

/-- `InREG <- In(); AC <- InREG` (R160, R162). With a value at the port: take it and remove it from `IN`. With none: the core
waits inside the step, nothing written yet (log entry 3). -/
def takeInput (s : State) : Result :=
  match s.inStream with
  | v :: rest => .next { s with inReg := v, ac := v, inStream := rest, inputWait := false }
  | [] => .next { s with inputWait := true }

/-- `Out(v)` (R165): append to the trace `OUT`. -/
def emit (v : Word) (s : State) : State := { s with outTrace := s.outTrace ++ [v] }

/-- R160. -/
def execInput (ign : Field) (s : State) : Result := takeInput (latchField ign s)

/-- The rest of an Input step that waits (R162): the same request of the port, again. -/
def resumeInput (s : State) : Result := takeInput s

/-- R163: `OutREG <- AC; Out(OutREG)`. -/
def execOutput (ign : Field) (s : State) : Result :=
  let t := { latchField ign s with outReg := s.ac }
  .next (emit t.outReg t)

/-- R166: `RUN <- Halted`. The fault record is not touched. -/
def execHalt (ign : Field) (s : State) : Result :=
  .next { latchField ign s with run := .halted }

end Sys2Proof.Machine
end

