-- ==== Sys2Proof/Machine/LoadStore.lean ====
section
/-! DEFINITION. Load and Store. Every meaning runs on the state the fetch leaves: it makes the decode's write of `MAR` (R92)
and then does what its handler does. -/

namespace Sys2Proof.Machine

/-- R110: `AC <- MemRead(MAR, 1)`. -/
def execLoad (x : Field) (s : State) : Result :=
  let t := latchField x s
  directOperand t fun v => .next { t with ac := v }

/-- R111: `MemWrite(MAR, 1, AC)`. -/
def execStore (x : Field) (s : State) : Result :=
  let t := latchField x s
  memWrite (directAddress t) t.ac t .next

end Sys2Proof.Machine
end

