-- ==== Sys2Proof/Machine/Dispatch.lean ====
section
/-! DEFINITION. The closed case over the 13 defined codes (R90, R94), on the state the fetch leaves. -/

namespace Sys2Proof.Machine

def exec (i : Instr) (s : State) : Host.Outcome State Fault Refusal :=
  match i with
  | .jumpAndStore x => Sys2Proof.Machine.execJumpAndStore x s
  | .load x => Sys2Proof.Machine.execLoad x s
  | .store x => Sys2Proof.Machine.execStore x s
  | .add x => Sys2Proof.Machine.execAdd x s
  | .subtract x => Sys2Proof.Machine.execSubtract x s
  | .input ign => Sys2Proof.Machine.execInput ign s
  | .output ign => Sys2Proof.Machine.execOutput ign s
  | .halt ign => Sys2Proof.Machine.execHalt ign s
  | .skipCond sel ign => Sys2Proof.Machine.execSkipCond sel ign s
  | .jump x => Sys2Proof.Machine.execJump x s
  | .clear ign => Sys2Proof.Machine.execClear ign s
  | .addIndirect x => Sys2Proof.Machine.execAddIndirect x s
  | .jumpIndirect x => Sys2Proof.Machine.execJumpIndirect x s

end Sys2Proof.Machine
end

