-- ==== Sys2Proof/WellFormed.lean ====
section
/-! DEFINITION. What a well-formed input of the machine is: an encodable pair (R66), an instruction, a program image (R212).
An `Instr` carries its bounds in its types, so each one is well formed; the checks that can refuse something are those of
the raw pair and of the image. -/

namespace Sys2Proof

/-- The pair of R63 that an instruction stands for. -/
def Instr.fields (i : Instr) : Fields := ⟨i.opcode.code.toNat, i.field.toNat⟩

/-- "for every opcode O and operand P in range": O in 0..12 and P in 0..4095 (R66). -/
def Fields.wf (f : Fields) : Bool := decide (f.code < Config.numOpcodes) && decide (f.operand < 4096)

/-- An instruction is well formed when its pair is in range. -/
def Instr.wf (i : Instr) : Bool := i.fields.wf

/-- An image fits when it has at most 511 words (R212). -/
def imageFits (image : List Word) : Bool := decide (image.length ≤ Config.maxImageWords)

end Sys2Proof
end

