-- ==== Sys2Proof/Machine/HostSide.lean ====
section
/-! DEFINITION. What the host does to the machine and reads from it between steps (R220, R221): program load, the input
port's supply, the status codes, the final report, the memory dump, and the host's own conversions of port values as far as
the spec gives them (R161, R164). No step of the core calls anything here. The host writes no register, and memory only by a
load before the first step (R221); it has no means to stop, pause or single-step a run, and no function here gives it one. -/

namespace Sys2Proof.Machine

/-- Word `k` of the list goes to address `a + k`. -/
def Memory.load (m : Memory) (a : Nat) (image : List Word) : Memory :=
  match image with
  | [] => m
  | w :: ws => Memory.load (m.set a w) (a + 1) ws

/-- The core is as reset left it, whatever input has been supplied: "after reset, before the first step" (R220). No step leaves
such a core, so this says that none has been taken (DEDUCED, log entry 13). -/
abbrev State.freshlyReset (s : State) : Prop := { State.reset with inStream := s.inStream } = s

/-- Program load (R212): the image goes to addresses 1..N and the registers are left alone. An image of more than 511 words
is refused as a whole (U14), and so is any load into a core that is not freshly reset (R221, U15). -/
def State.load (image : List Word) (s : State) : Option State :=
  if s.freshlyReset ∧ imageFits image = true then some { s with mem := s.mem.load Config.loadBase image } else none

/-- The host presents one more value at the input port (R162, R220). -/
def State.supplyInput (v : Word) (s : State) : State := { s with inStream := s.inStream ++ [v] }

/-- The status encoding of `RUN` (R23, D5). -/
def RunState.code : RunState → Nat
  | .running => 0
  | .halted => 1
  | .faulted => 2

/-- The 2-bit code of `FAULT_CAUSE` (R24, D5). -/
def FaultCause.code : FaultCause → BitVec 2
  | .none => 0
  | .illegalOpcode => 1
  | .memBounds => 2

/-- The final register report (R188, D17): AC, InREG and OutREG signed, the other four unsigned. -/
def State.report (s : State) : List (String × Int) :=
  [("AC", s16 s.ac), ("MAR", s.mar.toNat), ("MBR", s.mbr.toNat), ("PC", s.pc.toNat), ("IR", s.ir.toNat),
   ("InREG", s16 s.inReg), ("OutREG", s16 s.outReg)]

/-- The memory dump `M[0..511]` (R220, R221), which the host may read "after the run has ended" and not before (D13). -/
def State.memoryDump (s : State) : Option (List Word) :=
  match s.run with
  | .running => none
  | .halted => some ((List.range Config.memWords).map s.mem.get)
  | .faulted => some ((List.range Config.memWords).map s.mem.get)

/-- A line of text as the host sees it (R161): an integer, or the character code of its first character. What "parses as an
integer" means, and an empty line, are not in the source (N10): a value at the port is then any value. -/
inductive InputLine where
  | integer (n : Int)
  | text (firstCharacter : Nat)
deriving DecidableEq, Repr

/-- The port value of a line (R161, D8): `u16` of the number. For an integer outside -32768..32767 the source does not say what
it becomes (R161) and U5 says any value: `u16` there too is the model's choice. DESIGN CHOICE, log entry 14. -/
def InputLine.portValue : InputLine → Word
  | .integer n => u16 n
  | .text c => u16 c

/-- What the host shows for one output (R164). -/
inductive Shown where
  | character (code : Int)
  | number (n : Int)
deriving DecidableEq, Repr

/-- The host's rendering of a port value (R164), for a choice of `IS_ALPHA`. -/
def showOutput (isAlpha : Int → Bool) (v : Word) : Shown :=
  if isAlpha (s16 v) then .character (s16 v) else .number (s16 v)

end Sys2Proof.Machine
end

