-- ==== Sys2Proof/Machine/Step.lean ====
section
/-! DEFINITION. One step (R90): fetch, decode, execute. -/

namespace Sys2Proof.Machine

/-- Decode and execute (R90 parts 2 and 3), on the state the fetch leaves. -/
def decodeAndExecute (s : State) : Host.Outcome State Fault Refusal :=
  match decode s.ir with
  | .instr i => exec i s
  | .undefinedOpcode _ => illegalOpcode s

/-- One step. It is taken only when `RUN = Running` (R23, R90); an Input that waits for a value goes on where it stands
(R162). -/
def step (s : State) : Host.Outcome State Fault Refusal :=
  match s.run with
  | .running => if s.inputWait then resumeInput s else fetch s decodeAndExecute
  | .halted => terminalStep s
  | .faulted => terminalStep s

/-- `s` with one instruction word stored where the next step fetches, and a core that fetches: `RUN = Running` and no Input
waiting. Where `PC` names no word (512 or more) there is nowhere to store it and memory is left alone (log entry 9). -/
def State.withFetchWord (s : State) (nbits w : Nat) : State :=
  { s with
    run := .running
    inputWait := false
    mem := (s.mem.write? s.pc (BitVec.ofNat 16 (w % 2 ^ nbits))).getD s.mem }

end Sys2Proof.Machine
end

