-- ==== Sys2Proof/Safety.lean ====
section
/-! DEFINITION. The words claims about runs use: how a run ends (R222), and the invariant of the step boundaries (R24, R32,
R98). Each is an abbrev of a decidable proposition. -/

namespace Sys2Proof.Machine

/-- "A run has ended when `RUN = Halted` or `RUN = Faulted`" (R222). -/
abbrev State.ended (s : State) : Prop := s.run = .halted ∨ s.run = .faulted

/-- The run has ended cleanly (R222). -/
abbrev State.endedCleanly (s : State) : Prop := s.run = .halted

/-- The core is about to fetch: it runs and no Input waits. -/
abbrev State.fetching (s : State) : Prop := s.run = .running ∧ s.inputWait = false

/-- The address can be accessed (R43). -/
abbrev validAddress (a : Word) : Prop := a.toNat < Config.memWords

/-- The core stands at the start of a step that fetches the word `w` without a fault. -/
abbrev State.fetches (s : State) (w : Word) : Prop := s.fetching ∧ validAddress s.pc ∧ s.mem.get s.pc.toNat = w

/-- The fault record is clear (R24). -/
abbrev State.recordClear (s : State) : Prop :=
  s.faultCause = .none ∧ s.faultInfo = 0 ∧ s.faultKind = .none

/-- The record of an IllegalOpcode (R24, R93). -/
abbrev State.recordIllegalOpcode (s : State) : Prop :=
  s.faultCause = .illegalOpcode ∧ s.faultInfo = s.ir ∧ s.faultKind = .none ∧ 13 ≤ (opcodeBits s.ir).toNat

/-- The record of a MemBounds (R24, R98): the offending address is 512 or more; a failed fetch names `PC`, which `MAR` shows,
a failed write names `MAR`, a failed read names `MAR` or (AddIndirect only) a pointer. -/
abbrev State.recordMemBounds (s : State) : Prop :=
  s.faultCause = .memBounds ∧ 512 ≤ s.faultInfo.toNat ∧ s.faultKind ≠ .none ∧
    (s.faultKind = .fetch → s.faultInfo = s.pc ∧ s.mar = s.pc) ∧ (s.faultKind = .write → s.faultInfo = s.mar) ∧
    (s.faultKind = .read → s.faultInfo = s.mar ∨ (opcodeBits s.ir).toNat = 11)

/-- The record says what `RUN` says (R24). -/
abbrev State.recordAgrees (s : State) : Prop :=
  (s.run ≠ .faulted → s.recordClear) ∧ (s.run = .faulted → s.recordIllegalOpcode ∨ s.recordMemBounds)

/-- `MBR = IR` (R15), and `MAR = IR[11:0]` unless the fetch faulted (R92). -/
abbrev State.latchesAgree (s : State) : Prop :=
  s.mbr = s.ir ∧ (¬(s.run = .faulted ∧ s.faultKind = .fetch) → s.mar = zext16 (fieldBits s.ir))

/-- A halted core shows a Halt word in `IR`, a waiting one an Input word and `RUN = Running` (R162, R166). -/
abbrev State.irShowsWhy (s : State) : Prop :=
  (s.run = .halted → (opcodeBits s.ir).toNat = 7) ∧
    (s.inputWait = true → s.run = .running ∧ (opcodeBits s.ir).toNat = 5)

/-- The invariant of the step boundaries. -/
abbrev State.Inv (s : State) : Prop :=
  s.mem.wf = true ∧ s.recordAgrees ∧ s.latchesAgree ∧ s.irShowsWhy

/-- The words an instruction reads as data (the spec's table of accesses in R47): none, the word at the field, or that and the
word it points at. -/
def dataReads (i : Instr) (s : State) : List Nat :=
  match i with
  | .load x => [x.toNat]
  | .add x => [x.toNat]
  | .subtract x => [x.toNat]
  | .jumpIndirect x => [x.toNat]
  | .addIndirect x => [x.toNat, (s.mem.get x.toNat).toNat]
  | .jumpAndStore _ => []
  | .store _ => []
  | .input _ => []
  | .output _ => []
  | .halt _ => []
  | .skipCond _ _ => []
  | .jump _ => []
  | .clear _ => []

end Sys2Proof.Machine
end

