-- ==== Sys2Proof/Certificates/Slice0/Obligations.lean ====
section
/-! DEFINITION. The statements for the provers. Each docstring names the rule of spec/ it formalises, and the spec's own
decision or the model's log entry where a clause rests on one. -/

open Sys2Proof Sys2Proof.Machine

/-! ## Encoding -/

/-- Words written out bit by bit from R62 and R67, one for each format and more (the words of the spec's table EN). -/
def Obligations.SpecWordsDecode : Prop :=
  decode 0b0000000000000111#16 = .instr (.jumpAndStore 7) ∧
  decode 0b0001000001100100#16 = .instr (.load 100) ∧
  decode 0b0111101010111100#16 = .instr (.halt 0xABC) ∧
  decode 0b1000011111111111#16 = .instr (.skipCond .eqZero 0x3FF) ∧
  decode 0b1000110000000000#16 = .instr (.skipCond .never 0) ∧
  decode 0b1100000111111111#16 = .instr (.jumpIndirect 511) ∧
  decode 0b1101000000000000#16 = .undefinedOpcode 13

/-- Decode and encode agree on all instructions and all words: an instruction, with every operand and every ignored bit, is
read back from its word, and a word that decodes is the word of what it decodes to. DEDUCED from R62, R66 and R69: that the
ignored bits are kept is the model's form of an instruction (log entry 10). -/
def Obligations.DecodeAndEncodeAgree : Prop :=
  ∀ (w : Word) (i : Instr), decode w = .instr i ↔ encode i = w

/-- R66, on the document's pair of a code and an operand, in both directions. -/
def Obligations.FieldPairsRoundTrip : Prop :=
  (∀ code operand : Nat, (Fields.mk code operand).wf = true →
    decodeFields (encodeWord (some code) operand) = ⟨code, operand⟩) ∧
  (∀ w : Word, (decodeFields w).wf = true →
    encodeWord (some (decodeFields w).code) (decodeFields w).operand = w)

/-- R63: the code is `word >> 12`, the field is `word & 0xFFF`, for every word; the field is zero-extended as it is. -/
def Obligations.DecodeSplitsTheWord : Prop :=
  ∀ w : Word, (decodeFields w).code = w.toNat / 4096 ∧ (decodeFields w).operand = w.toNat % 4096 ∧
    (opcodeBits w).toNat = w.toNat / 4096 ∧ (zext16 (fieldBits w)).toNat = w.toNat % 4096

/-- R65: the operand is cut to its low 12 bits, a data literal to its low 16; an instruction's word is the word of its pair. -/
def Obligations.EncodeCutsTheOperand : Prop :=
  (∀ (code : Nat) (operand : Int), code < 13 →
    ((encodeWord (some code) operand).toNat : Int) = code * 4096 + operand % 4096) ∧
  (∀ literal : Int, ((encodeWord none literal).toNat : Int) = literal % 65536) ∧
  (∀ i : Instr, encodeWord (some i.fields.code) i.fields.operand = encode i)

/-- R64: the selector of a SkipCond word is `(word >> 10) & 0b11`. -/
def Obligations.SelectorIsBitsElevenAndTen : Prop :=
  ∀ w : Word, (opcodeBits w).toNat = 8 →
    ∃ sel ign, decode w = .instr (.skipCond sel ign) ∧ sel.bits.toNat = (w.toNat / 1024) % 4

/-- R67: the opcode map, each word under exactly the row its top four bits name; the codes 13 to 15 have none. -/
def Obligations.OpcodeMapDecides : Prop :=
  (∀ (w : Word) (r : OpcodeRow), r ∈ opcodeTable →
    (w &&& r.mask = r.pattern ↔ ∃ i, decode w = .instr i ∧ i.opcode = r.opcode)) ∧
  (∀ w : Word, 0xD000 ≤ w.toNat ↔ decode w = .undefinedOpcode (opcodeBits w))

/-! ## The step -/

/-- R90: a step that fetches a word runs the instruction it decodes to, on the state the fetch leaves. -/
def Obligations.StepRunsDecodedInstruction : Prop :=
  ∀ (s : State) (w : Word) (i : Instr), s.fetches w → decode w = .instr i →
    step s = exec i { s with mar := s.pc, mbr := w, ir := w, pc := s.pc + 1 }

/-- R91: `MAR <- PC`, then the read; where it fails, `MBR`, `IR` and `PC` keep their old values and the record names `PC` and
`fetch`; where it does not, `MBR`, `IR` hold the word and `PC` is incremented before decode and handler. -/
def Obligations.FetchReadsThenIncrements : Prop :=
  ∀ s : State, s.fetching →
    (512 ≤ s.pc.toNat → step s = .next { s with
      mar := s.pc, run := .faulted, faultCause := .memBounds, faultInfo := s.pc, faultKind := .fetch }) ∧
    (s.pc.toNat < 512 → step s = decodeAndExecute { s with
      mar := s.pc, mbr := s.mem.get s.pc.toNat, ir := s.mem.get s.pc.toNat, pc := s.pc + 1 })

/-- R68 and R93: a fetched word of 0xD000 or more raises IllegalOpcode. That `MAR` is written before the check is the spec's
decision D14. -/
def Obligations.UndefinedOpcodeFaults : Prop :=
  ∀ (s : State) (w : Word), s.fetches w → 0xD000 ≤ w.toNat →
    step s = .next { s with
      mar := zext16 (fieldBits w), mbr := w, ir := w, pc := s.pc + 1,
      run := .faulted, faultCause := .illegalOpcode, faultInfo := w, faultKind := .none }

/-- R23, R185: in `Halted` and in `Faulted` nothing changes, for any number of steps. That the model answers the same state
is log entry 6. -/
def Obligations.TerminalStatesStay : Prop :=
  ∀ (s : State) (k : Nat), s.ended → Sys2Proof.core.run k s = .next s

/-- No step and no instruction ends in a fault or a refusal of the model: the two faults of R180 are states (R183; log entry
11). That a step from a terminal state answers that state, where R23 says no step is taken, is log entry 6; that a step whose
Input finds the port empty answers a waiting state, where R95 says the step does not complete, is log entry 3. -/
def Obligations.EveryStepAnswersAState : Prop :=
  (∀ s : State, ∃ t, step s = .next t) ∧ (∀ (i : Instr) (s : State), ∃ t, exec i s = .next t)

/-! ## What each instruction does. `s` is the state the fetch leaves; the decode's write of `MAR` is part of each. -/

/-- R110. That `MBR` keeps the instruction word is the spec's decision D4. -/
def Obligations.LoadResult : Prop :=
  ∀ (x : Field) (s : State), (encode (.load x)).toNat = 0x1000 + x.toNat ∧
    (x.toNat < 512 → exec (.load x) s = .next { s with mar := zext16 x, ac := s.mem.get x.toNat }) ∧
    (512 ≤ x.toNat → exec (.load x) s = .next { s with
      mar := zext16 x, run := .faulted, faultCause := .memBounds, faultInfo := zext16 x, faultKind := .read })

/-- R111. -/
def Obligations.StoreResult : Prop :=
  ∀ (x : Field) (s : State), (encode (.store x)).toNat = 0x2000 + x.toNat ∧
    (x.toNat < 512 → ∃ m, exec (.store x) s = .next { s with mar := zext16 x, mem := m } ∧
      m.get x.toNat = s.ac ∧ ∀ a, a ≠ x.toNat → m.get a = s.mem.get a) ∧
    (512 ≤ x.toNat → exec (.store x) s = .next { s with
      mar := zext16 x, run := .faulted, faultCause := .memBounds, faultInfo := zext16 x, faultKind := .write })

/-- R124: the exact sum reduced modulo 65536. -/
def Obligations.AddResult : Prop :=
  ∀ (x : Field) (s : State), (encode (.add x)).toNat = 0x3000 + x.toNat ∧
    (x.toNat < 512 → exec (.add x) s = .next { s with
      mar := zext16 x, ac := u16 ((s.ac.toNat : Int) + ((s.mem.get x.toNat).toNat : Int)) }) ∧
    (512 ≤ x.toNat → exec (.add x) s = .next { s with
      mar := zext16 x, run := .faulted, faultCause := .memBounds, faultInfo := zext16 x, faultKind := .read })

/-- R125: the memory word is the subtrahend. -/
def Obligations.SubtractResult : Prop :=
  ∀ (x : Field) (s : State), (encode (.subtract x)).toNat = 0x4000 + x.toNat ∧
    (x.toNat < 512 → exec (.subtract x) s = .next { s with
      mar := zext16 x, ac := u16 ((s.ac.toNat : Int) - ((s.mem.get x.toNat).toNat : Int)) }) ∧
    (512 ≤ x.toNat → exec (.subtract x) s = .next { s with
      mar := zext16 x, run := .faulted, faultCause := .memBounds, faultInfo := zext16 x, faultKind := .read })

/-- R126: no access is made, whatever the ignored bits. -/
def Obligations.ClearResult : Prop :=
  ∀ (ign : Field) (s : State), (encode (.clear ign)).toNat = 0xA000 + ign.toNat ∧
    exec (.clear ign) s = .next { s with mar := zext16 ign, ac := 0 }

/-- R127: two levels; the pointer is all 16 bits of the word; the first fault met is raised. That the pointer is not put into
`MAR` or `MBR` is the spec's decision D4. -/
def Obligations.AddIndirectResult : Prop :=
  ∀ (x : Field) (s : State), (encode (.addIndirect x)).toNat = 0xB000 + x.toNat ∧
    (x.toNat < 512 → (s.mem.get x.toNat).toNat < 512 → exec (.addIndirect x) s = .next { s with
      mar := zext16 x,
      ac := u16 ((s.ac.toNat : Int) + ((s.mem.get (s.mem.get x.toNat).toNat).toNat : Int)) }) ∧
    (x.toNat < 512 → 512 ≤ (s.mem.get x.toNat).toNat → exec (.addIndirect x) s = .next { s with
      mar := zext16 x, run := .faulted, faultCause := .memBounds, faultInfo := s.mem.get x.toNat,
      faultKind := .read }) ∧
    (512 ≤ x.toNat → exec (.addIndirect x) s = .next { s with
      mar := zext16 x, run := .faulted, faultCause := .memBounds, faultInfo := zext16 x, faultKind := .read })

/-- R140: any field is a target; none faults in this step; a target of 512 or more is found by the next fetch. -/
def Obligations.JumpResult : Prop :=
  ∀ (x : Field) (s : State), (encode (.jump x)).toNat = 0x9000 + x.toNat ∧
    exec (.jump x) s = .next { s with mar := zext16 x, pc := zext16 x } ∧
    (∀ t, exec (.jump x) s = .next t → t.fetching → 512 ≤ t.pc.toNat → step t = .next { t with
      mar := t.pc, run := .faulted, faultCause := .memBounds, faultInfo := t.pc, faultKind := .fetch })

/-- R143: all 16 bits of the word go to `PC`; a target of 512 or more is found by the next fetch. -/
def Obligations.JumpIndirectResult : Prop :=
  ∀ (x : Field) (s : State), (encode (.jumpIndirect x)).toNat = 0xC000 + x.toNat ∧
    (x.toNat < 512 → exec (.jumpIndirect x) s = .next { s with mar := zext16 x, pc := s.mem.get x.toNat }) ∧
    (512 ≤ x.toNat → exec (.jumpIndirect x) s = .next { s with
      mar := zext16 x, run := .faulted, faultCause := .memBounds, faultInfo := zext16 x, faultKind := .read }) ∧
    (∀ t, exec (.jumpIndirect x) s = .next t → t.fetching → 512 ≤ t.pc.toNat → step t = .next { t with
      mar := t.pc, run := .faulted, faultCause := .memBounds, faultInfo := t.pc, faultKind := .fetch })

/-- R146: the word stored is `PC` as the fetch left it; `PC` is changed only if the write succeeded; the
target 512 (of `X = 511`) is found by the next fetch. -/
def Obligations.JumpAndStoreResult : Prop :=
  ∀ (x : Field) (s : State), (encode (.jumpAndStore x)).toNat = x.toNat ∧
    (x.toNat < 512 → ∃ m, exec (.jumpAndStore x) s = .next { s with
        mar := zext16 x, mem := m, pc := zext16 x + 1 } ∧
      m.get x.toNat = s.pc ∧ ∀ a, a ≠ x.toNat → m.get a = s.mem.get a) ∧
    (512 ≤ x.toNat → exec (.jumpAndStore x) s = .next { s with
      mar := zext16 x, run := .faulted, faultCause := .memBounds, faultInfo := zext16 x, faultKind := .write }) ∧
    (∀ t, exec (.jumpAndStore x) s = .next t → t.fetching → 512 ≤ t.pc.toNat → step t = .next { t with
      mar := t.pc, run := .faulted, faultCause := .memBounds, faultInfo := t.pc, faultKind := .fetch })

/-- R150 and R151: negative is 0x8000..0xFFFF, positive 0x0001..0x7FFF; nothing but `PC` (and the decode's `MAR`) changes. The
increment is plus one for every `PC` but 65535, where the spec leaves it undefined: that exec answers a next state there, with
some `PC`, is the model's choice (log entry 4). The signed reading of `AC` is the spec's decision D1. -/
def Obligations.SkipCondResult : Prop :=
  ∀ (sel : SkipSel) (ign : BitVec 10) (s : State),
    (encode (.skipCond sel ign)).toNat = 0x8000 + 1024 * sel.bits.toNat + ign.toNat ∧
    ∃ next : Word, (s.pc ≠ 0xFFFF#16 → next = s.pc + 1) ∧
      (((sel = .ltZero ∧ 0x8000 ≤ s.ac.toNat) ∨ (sel = .eqZero ∧ s.ac.toNat = 0) ∨
          (sel = .gtZero ∧ 1 ≤ s.ac.toNat ∧ s.ac.toNat ≤ 0x7FFF)) →
        exec (.skipCond sel ign) s = .next { s with
          mar := zext16 (Instr.skipCond sel ign).field, pc := next }) ∧
      (¬((sel = .ltZero ∧ 0x8000 ≤ s.ac.toNat) ∨ (sel = .eqZero ∧ s.ac.toNat = 0) ∨
          (sel = .gtZero ∧ 1 ≤ s.ac.toNat ∧ s.ac.toNat ≤ 0x7FFF)) →
        exec (.skipCond sel ign) s = .next { s with mar := zext16 (Instr.skipCond sel ign).field })

/-- R160: with a value at the port, the next one is taken, into `InREG` and `AC`. `inputWait` is the model's field (log entry
3). -/
def Obligations.InputResult : Prop :=
  ∀ (ign : Field) (s : State) (v : Word) (rest : List Word), s.inStream = v :: rest →
    (encode (.input ign)).toNat = 0x5000 + ign.toNat ∧
    exec (.input ign) s = .next { s with
      mar := zext16 ign, inReg := v, ac := v, inStream := rest, inputWait := false }

/-- R162 (the spec's decision D8): with no value the core waits inside the step, with fetch and decode done and `InREG`, `AC`
not written; while it waits without a value nothing changes; a value ends the wait. `inputWait` is the model's field (log
entry 3). -/
def Obligations.InputWaits : Prop :=
  (∀ (ign : Field) (s : State), s.inStream = [] →
    exec (.input ign) s = .next { s with mar := zext16 ign, inputWait := true }) ∧
  (∀ s : State, s.run = .running → s.inputWait = true → s.inStream = [] → step s = .next s) ∧
  (∀ (s : State) (v : Word) (rest : List Word), s.run = .running → s.inputWait = true → s.inStream = v :: rest →
    step s = .next { s with inReg := v, ac := v, inStream := rest, inputWait := false })

/-- R163: exactly one value is emitted, after all earlier ones. -/
def Obligations.OutputResult : Prop :=
  ∀ (ign : Field) (s : State), (encode (.output ign)).toNat = 0x6000 + ign.toNat ∧
    exec (.output ign) s = .next { s with
      mar := zext16 ign, outReg := s.ac, outTrace := s.outTrace ++ [s.ac] }

/-- R166: only `RUN` changes (and the decode's `MAR`); the fault record stays. R166 and R23 say that no further step is taken;
that the model's step from there answers the same state is log entry 6. -/
def Obligations.HaltResult : Prop :=
  ∀ (ign : Field) (s : State), (encode (.halt ign)).toNat = 0x7000 + ign.toNat ∧
    exec (.halt ign) s = .next { s with mar := zext16 ign, run := .halted } ∧
    ∀ t, exec (.halt ign) s = .next t → step t = .next t

/-! ## Frames -/

/-- R20: which instructions write which register, and R24: the fault record is written only when `RUN` becomes `Faulted`.
`inputWait` is the model's field (log entry 3). -/
def Obligations.RegisterFrame : Prop :=
  ∀ (i : Instr) (s t : State), exec i s = .next t →
    t.mbr = s.mbr ∧ t.ir = s.ir ∧ t.mar = zext16 i.field ∧
    (i.opcode ∉ [.load, .add, .subtract, .clear, .addIndirect, .input] → t.ac = s.ac) ∧
    (i.opcode ∉ [.jump, .jumpIndirect, .jumpAndStore, .skipCond] → t.pc = s.pc) ∧
    (i.opcode ≠ .input → t.inReg = s.inReg ∧ t.inStream = s.inStream ∧ t.inputWait = s.inputWait) ∧
    (i.opcode ≠ .output → t.outReg = s.outReg ∧ t.outTrace = s.outTrace) ∧
    (t.run = s.run ∨ (t.run = .halted ∧ i.opcode = .halt) ∨ t.run = .faulted) ∧
    (t.run ≠ .faulted → t.faultCause = s.faultCause ∧ t.faultInfo = s.faultInfo ∧ t.faultKind = s.faultKind)

/-- R47: eleven instructions write no word of memory. -/
def Obligations.NonStoringMemoryFrame : Prop :=
  ∀ (i : Instr) (s t : State), i.opcode ≠ .store → i.opcode ≠ .jumpAndStore → exec i s = .next t →
    ∀ a, t.mem.get a = s.mem.get a

/-- R47: Store and JumpAndStore write the one word at the direct address and no other. -/
def Obligations.StoringMemoryFrame : Prop :=
  ∀ (x : Field) (s t : State) (address : Word),
    (exec (.store x) s = .next t ∨ exec (.jumpAndStore x) s = .next t) →
    directAddress (latchField x s) = address →
    address.toNat = x.toNat ∧ ∀ a, a ≠ address.toNat → t.mem.get a = s.mem.get a

/-- R29: exactly one value of `IN` per Input that gets one, exactly one value of `OUT` per Output, neither touched otherwise. -/
def Obligations.PortsMoveOneValue : Prop :=
  ∀ (i : Instr) (s t : State), exec i s = .next t →
    (i.opcode ≠ .input → t.inStream = s.inStream) ∧
    (i.opcode = .input → s.inStream = [] ∧ t.inStream = [] ∨ ∃ v, s.inStream = v :: t.inStream) ∧
    (i.opcode ≠ .output → t.outTrace = s.outTrace) ∧
    (i.opcode = .output → ∃ v, t.outTrace = s.outTrace ++ [v] ∧ t.outReg = v)

/-- R47, as two runs: an instruction learns nothing of memory but the words it reads. States alike in all but memory, and in
those words, are alike in all but memory after it, and agree on every word they agreed on. -/
def Obligations.OnlyTheWordsReadMatter : Prop :=
  ∀ (i : Instr) (s s' t : State), s' = { s with mem := s'.mem } →
    (∀ a ∈ dataReads i s, s'.mem.get a = s.mem.get a) → exec i s = .next t →
    ∃ t', exec i s' = .next t' ∧ t' = { t with mem := t'.mem } ∧
      ∀ a, s'.mem.get a = s.mem.get a → t'.mem.get a = t.mem.get a

/-! ## Memory -/

/-- R41, R42, R43: the bounds check is made on the whole 16-bit address; a write replaces the whole word and no other; a read
after it sees it; a word of the reset memory reads 0. That a write keeps the canonical form is no rule of the spec: the form
is the model's (log entry 7). -/
def Obligations.MemoryPrimitives : Prop :=
  (∀ (m : Memory) (a v : Word), (512 ≤ a.toNat ↔ m.read? a = none) ∧ (512 ≤ a.toNat ↔ m.write? a v = none)) ∧
  (∀ (m n : Memory) (a v : Word), m.write? a v = some n →
    n.read? a = some v ∧ (∀ b, b ≠ a → n.read? b = m.read? b) ∧ (m.wf = true → n.wf = true)) ∧
  (∀ a : Word, a.toNat < 512 → State.reset.mem.read? a = some 0)

/-! ## Rules of the whole machine -/

/-- R16: `PC` after a step that fetched the word `w` from the address `s.pc`, by the opcode of `w` and by whether it faulted. -/
def Obligations.PcAfterAStep : Prop :=
  ∀ (s t : State) (w : Word), s.fetches w → step s = .next t →
    (t.run = .faulted → t.pc = s.pc + 1) ∧
    (t.run ≠ .faulted →
      ((opcodeBits w).toNat ∈ [1, 2, 3, 4, 5, 6, 7, 10, 11] → t.pc = s.pc + 1) ∧
      ((opcodeBits w).toNat = 8 →
        t.pc = if skipTaken (SkipSel.ofBits (selBits (fieldBits w))) s.ac then s.pc + 2 else s.pc + 1) ∧
      ((opcodeBits w).toNat = 9 → t.pc = zext16 (fieldBits w)) ∧
      ((opcodeBits w).toNat = 12 → t.pc = s.mem.get (fieldBits w).toNat) ∧
      ((opcodeBits w).toNat = 0 → t.pc = zext16 (fieldBits w) + 1))

/-- R98: the whole state each fault of a handler leaves, for the word `w` fetched from `s.pc`. -/
def Obligations.StateAFaultLeaves : Prop :=
  ∀ (s : State) (w : Word), s.fetches w →
    (512 ≤ (fieldBits w).toNat → (opcodeBits w).toNat ∈ [1, 3, 4, 11, 12] →
      step s = .next { s with
        mar := zext16 (fieldBits w), mbr := w, ir := w, pc := s.pc + 1, run := .faulted,
        faultCause := .memBounds, faultInfo := zext16 (fieldBits w), faultKind := .read }) ∧
    (512 ≤ (fieldBits w).toNat → (opcodeBits w).toNat ∈ [0, 2] →
      step s = .next { s with
        mar := zext16 (fieldBits w), mbr := w, ir := w, pc := s.pc + 1, run := .faulted,
        faultCause := .memBounds, faultInfo := zext16 (fieldBits w), faultKind := .write }) ∧
    ((fieldBits w).toNat < 512 → 512 ≤ (s.mem.get (fieldBits w).toNat).toNat → (opcodeBits w).toNat = 11 →
      step s = .next { s with
        mar := zext16 (fieldBits w), mbr := w, ir := w, pc := s.pc + 1, run := .faulted,
        faultCause := .memBounds, faultInfo := s.mem.get (fieldBits w).toNat, faultKind := .read })

/-- R184: a step that faults leaves `AC`, memory and the ports as they were, and the model's field `inputWait` (log entry 3). -/
def Obligations.FaultsArePrecise : Prop :=
  ∀ s t : State, s.run = .running → step s = .next t → t.run = .faulted →
    t.ac = s.ac ∧ t.mem = s.mem ∧ t.inReg = s.inReg ∧ t.outReg = s.outReg ∧ t.inStream = s.inStream ∧
      t.outTrace = s.outTrace ∧ t.inputWait = s.inputWait

/-- R180, R186 and R96: from `Running` a step halts exactly on a fetched Halt word, faults as IllegalOpcode exactly on a
fetched undefined opcode, faults otherwise only as MemBounds, and otherwise leaves the fault record alone. -/
def Obligations.ThreeWaysToEnd : Prop :=
  ∀ s t : State, s.fetching → step s = .next t →
    (t.run = .halted ↔ validAddress s.pc ∧ (opcodeBits (s.mem.get s.pc.toNat)).toNat = 7) ∧
    (t.run = .faulted ∧ t.faultCause = .illegalOpcode ↔
      validAddress s.pc ∧ 13 ≤ (opcodeBits (s.mem.get s.pc.toNat)).toNat) ∧
    (t.run = .faulted → t.recordIllegalOpcode ∨ t.recordMemBounds) ∧
    (t.run ≠ .faulted → t.faultCause = s.faultCause ∧ t.faultInfo = s.faultInfo ∧ t.faultKind = s.faultKind)

/-- R69: any ignored bits give the same instruction; the only difference is the `MAR` the decode leaves. -/
def Obligations.IgnoredBitsShowOnlyInMar : Prop :=
  ∀ (s t : State) (a b : Field) (sel : SkipSel) (c d : BitVec 10),
    (exec (.input a) s = .next t → exec (.input b) s = .next { t with mar := zext16 b }) ∧
    (exec (.output a) s = .next t → exec (.output b) s = .next { t with mar := zext16 b }) ∧
    (exec (.halt a) s = .next t → exec (.halt b) s = .next { t with mar := zext16 b }) ∧
    (exec (.clear a) s = .next t → exec (.clear b) s = .next { t with mar := zext16 b }) ∧
    (exec (.skipCond sel c) s = .next t →
      exec (.skipCond sel d) s = .next { t with mar := zext16 (joinSelector sel.bits d) })

/-- R147, R72: the zero word is JumpAndStore 0: it writes the return address to `M[0]` and goes on at address 1. -/
def Obligations.ZeroWordRestartsAtOne : Prop :=
  ∀ s : State, s.fetches 0 →
    ∃ m, step s = .next { s with mar := 0, mbr := 0, ir := 0, pc := 1, mem := m } ∧
      m.get 0 = s.pc + 1 ∧ ∀ a, a ≠ 0 → m.get a = s.mem.get a

/-- R112: a Load after a Store to the same address, with that word unchanged in between, gives the stored value. -/
def Obligations.LoadAfterStore : Prop :=
  ∀ (x : Field) (s t u : State), x.toNat < 512 → exec (.store x) s = .next t →
    u.mem.get x.toNat = t.mem.get x.toNat → ∃ v, exec (.load x) u = .next v ∧ v.ac = s.ac

/-- R54: the fetch sees a store with nothing between: a Store onto the next address makes the next step fetch `AC`. -/
def Obligations.FetchSeesTheStore : Prop :=
  ∀ (s : State) (x : Field), s.fetches (encode (.store x)) → x.toNat = s.pc.toNat + 1 → x.toNat < 512 →
    ∃ t, step s = .next t ∧ t.fetches s.ac ∧ t.ir = encode (.store x)

/-- R129: Add then Subtract of the same word restores `AC`, overflow or not; Clear then Add is Load, as far as `AC` goes; Load
then Subtract gives 0. -/
def Obligations.ArithmeticLaws : Prop :=
  ∀ (x ign : Field) (s : State), x.toNat < 512 →
    (∃ t u, exec (.add x) s = .next t ∧ exec (.subtract x) t = .next u ∧ u.ac = s.ac) ∧
    (∃ t u v, exec (.clear ign) s = .next t ∧ exec (.add x) t = .next u ∧ exec (.load x) s = .next v ∧ u.ac = v.ac) ∧
    (∃ t u, exec (.load x) s = .next t ∧ exec (.subtract x) t = .next u ∧ u.ac = 0)

/-- R121 (the spec's decision D1): read as signed numbers, the sum and the difference are exact when they fit, and off by
exactly 65536 when they do not. -/
def Obligations.SignedArithmeticWraps : Prop :=
  ∀ x y : Word,
    (overflows (s16 x + s16 y) = false → s16 (addWords x y) = s16 x + s16 y) ∧
    (overflows (s16 x + s16 y) = true →
      s16 (addWords x y) = s16 x + s16 y - 65536 ∨ s16 (addWords x y) = s16 x + s16 y + 65536) ∧
    (overflows (s16 x - s16 y) = false → s16 (subWords x y) = s16 x - s16 y) ∧
    (overflows (s16 x - s16 y) = true →
      s16 (subWords x y) = s16 x - s16 y - 65536 ∨ s16 (subWords x y) = s16 x - s16 y + 65536)

/-- R148: JumpAndStore `S`, and later JumpIndirect `S` with the slot unchanged, returns to the instruction after the call; `AC`
passes through both. A second call before the return overwrites the slot. -/
def Obligations.CallAndReturn : Prop :=
  ∀ (x : Field) (s t u : State), x.toNat < 512 → exec (.jumpAndStore x) s = .next t →
    t.ac = s.ac ∧ t.pc.toNat = x.toNat + 1 ∧
    (u.mem.get x.toNat = t.mem.get x.toNat →
      ∃ v, exec (.jumpIndirect x) u = .next v ∧ v.pc = s.pc ∧ v.ac = u.ac) ∧
    (∃ v, exec (.jumpAndStore x) u = .next v ∧ v.mem.get x.toNat = u.pc)

/-- R162: the wait is no more than a wait: an Input that found the port empty, answered later, leaves the state it would have
left at once. That a model step ends where the wait begins, and that the next step resumes the Input, is log entry 3: R95 and
R162 say that the step does not complete. -/
def Obligations.WaitingInputIsTransparent : Prop :=
  ∀ (s t : State) (ign : Field) (v : Word) (rest : List Word),
    s.fetches (encode (.input ign)) → s.inStream = [] → step s = .next t →
    t.run = .running ∧ step { t with inStream := v :: rest } = step { s with inStream := v :: rest }

/-! ## Reset, load, invariant -/

/-- R31, R210: what reset leaves. The six registers' zeros are the spec's decision D3 (log entry 1), the clear record its D5;
`IN` is free and not spoken of. -/
def Obligations.ResetLeaves : Prop :=
  State.reset.pc = 1 ∧ State.reset.run = .running ∧ State.reset.outTrace = [] ∧
  (∀ a, State.reset.mem.get a = 0) ∧ State.reset.recordClear ∧
  State.reset.ac = 0 ∧ State.reset.mar = 0 ∧ State.reset.mbr = 0 ∧ State.reset.ir = 0 ∧ State.reset.inReg = 0 ∧
  State.reset.outReg = 0

/-- R212: the image goes to addresses 1 to N, address 0 and the words above N stay 0, the registers are left alone; an image
of more than 511 words is refused as a whole (the spec's decision D13). That the loaded memory is canonical is the model's
form of memory (log entry 7). -/
def Obligations.LoadPlacesTheImage : Prop :=
  ∀ image : List Word,
    (image.length ≤ 511 → ∃ t, State.load image State.reset = some t ∧ t = { State.reset with mem := t.mem } ∧
      t.mem.wf = true ∧ t.mem.get 0 = 0 ∧ (∀ k w, image[k]? = some w → t.mem.get (k + 1) = w) ∧
      (∀ a, image.length < a → t.mem.get a = 0)) ∧
    (511 < image.length → State.load image State.reset = none)

/-- The invariant of the step boundaries holds at reset. Canonical memory is the model's form (log entry 7); `MBR = IR` and
`MAR = IR[11:0]` hold by the zeros of log entry 1 (the spec's decision D3), and the waiting flag is false by log entry 3. -/
def Obligations.InvariantAtReset : Prop := State.reset.Inv

/-- Every step keeps the invariant, from every state that meets it: memory is canonical, the fault record says what `RUN`
says (R24), `MBR = IR` (R15), `MAR = IR[11:0]` but after a failed fetch (R92, R98), a halted core shows a Halt word and a
waiting one an Input word. DEDUCED from R32 and R98; canonical memory is the model's form (log entry 7), and the waiting core
between two steps is log entry 3. -/
def Obligations.StepKeepsTheInvariant : Prop :=
  ∀ s t : State, s.Inv → step s = .next t → t.Inv

/-- What the host does between steps keeps the invariant: supplying a value, loading an image (where the load is not refused).
That the host acts by functions between steps is log entry 13, canonical memory log entry 7. -/
def Obligations.HostActionsKeepTheInvariant : Prop :=
  ∀ (s t : State) (v : Word) (image : List Word), s.Inv →
    (s.supplyInput v).Inv ∧ (s.load image = some t → t.Inv)

/-- Canonical memories that read the same are the same data (log entry 7). -/
def Obligations.CanonicalMemoriesAreEqual : Prop :=
  ∀ m n : Memory, m.wf = true → n.wf = true → (∀ a, m.get a = n.get a) → m = n

/-- The word `withFetchWord` stores is the word the next step fetches (log entry 9). -/
def Obligations.PlacedWordIsFetched : Prop :=
  ∀ (s : State) (i : Instr), validAddress s.pc →
    (s.withFetchWord 16 (encode i).toNat).fetches (encode i) ∧
    decodeTableWord 16 (encode i).toNat = some i

/-- R161, R164: a port value is `u16` of the line's number, and an output is shown as its signed reading, as a character
exactly where the host's choice of letters says so. The choice itself is no rule (log entry 8), and neither is `u16` of an
integer outside -32768..32767, which R161 and U5 leave open (log entry 14). -/
def Obligations.HostConversions : Prop :=
  (∀ n : Int, ((InputLine.integer n).portValue.toNat : Int) = n % 65536) ∧
  (∀ c : Nat, (InputLine.text c).portValue.toNat = c % 65536) ∧
  (∀ (isAlpha : Int → Bool) (v : Word),
    (isAlpha v.toInt = true → showOutput isAlpha v = .character v.toInt) ∧
    (isAlpha v.toInt = false → showOutput isAlpha v = .number v.toInt))

/-- R221, U15 and the spec's decision D13: the host writes no register, and memory only before the first step. A load that is not
refused finds every piece of state as reset left it, but for the input supplied, and writes memory alone; once a step has been
taken, and in every ended core, whatever input is supplied, each load is refused. Supplying a value changes `IN` alone. That
the host acts by functions between steps, and how a load knows that no step has been taken, is log entry 13. -/
def Obligations.HostWritesOnlyBeforeTheFirstStep : Prop :=
  (∀ (s t : State) (image : List Word), s.load image = some t →
    s = { State.reset with inStream := s.inStream } ∧ t = { s with mem := t.mem }) ∧
  (∀ (s t : State) (supplied image : List Word), s.Inv → step s = .next t →
    State.load image { t with inStream := supplied } = none) ∧
  (∀ (s : State) (image : List Word), s.ended → s.load image = none) ∧
  (∀ (s : State) (v : Word), s.supplyInput v = { s with inStream := s.inStream ++ [v] })

/-- R220, R221 and D13: the memory dump is `M[0..511]`, to be read after the run has ended and not before. -/
def Obligations.MemoryDumpAfterTheEnd : Prop :=
  (∀ s : State, s.memoryDump = none ↔ ¬s.ended) ∧
  (∀ (s : State) (words : List Word), s.memoryDump = some words →
    words.length = 512 ∧ ∀ a, a < 512 → words[a]? = some (s.mem.get a))
end

