-- ==== Sys2Proof/Laws/Decode.lean ====
section
/-! SUPPORT. The bit fields of an encoded word, and the tables of opcodes and selectors read both ways. -/

namespace Sys2Proof

theorem opcodeBits_join (c : BitVec 4) (x : Field) : opcodeBits (joinOpcode c x) = c := by
  unfold opcodeBits joinOpcode
  ext k hk
  have h1 : 12 + k < 16 := by omega
  simp [hk, h1]

theorem fieldBits_join (c : BitVec 4) (x : Field) : fieldBits (joinOpcode c x) = x := by
  unfold fieldBits joinOpcode
  ext k hk
  have h1 : k < 16 := by omega
  simp [hk, h1]

theorem join_bits (w : Word) : joinOpcode (opcodeBits w) (fieldBits w) = w := by
  unfold fieldBits joinOpcode opcodeBits
  ext k hk
  by_cases h : k < 12
  · simp [h, BitVec.getLsbD_eq_getElem hk]
  · have h1 : 12 + (k - 12) = k := by omega
    have h2 : k - 12 < 4 := by omega
    simp [h, h1, h2, BitVec.getLsbD_eq_getElem hk]

theorem opcodeBits_encode (i : Instr) : opcodeBits (encode i) = i.opcode.code := opcodeBits_join _ _

theorem fieldBits_encode (i : Instr) : fieldBits (encode i) = i.field := fieldBits_join _ _

theorem Opcode.ofCode_code (o : Opcode) : Opcode.ofCode o.code = some o := by cases o <;> rfl

theorem SkipSel.ofBits_bits (b : SkipSel) : SkipSel.ofBits b.bits = b := by cases b <;> rfl

theorem SkipSel.bits_ofBits (b : BitVec 2) : (SkipSel.ofBits b).bits = b := by revert b; decide

/-- An opcode is found exactly at its own code. -/
theorem Opcode.ofCode_eq_some (c : BitVec 4) (o : Opcode) : Opcode.ofCode c = some o ↔ c = o.code := by
  constructor
  · revert c o; intro c; revert c; decide
  · rintro rfl; exact Opcode.ofCode_code o

/-- No opcode is found exactly at 13, 14, 15. -/
theorem Opcode.ofCode_eq_none (c : BitVec 4) : Opcode.ofCode c = none ↔ 13 ≤ c.toNat := by revert c; decide

theorem selBits_join (b : BitVec 2) (r : BitVec 10) : selBits (joinSelector b r) = b := by
  unfold selBits joinSelector
  ext k hk
  have h1 : 10 + k < 12 := by omega
  simp [hk, h1]

theorem ignoredBits_join (b : BitVec 2) (r : BitVec 10) : ignoredBits (joinSelector b r) = r := by
  unfold ignoredBits joinSelector
  ext k hk
  have h1 : k < 12 := by omega
  simp [hk, h1]

theorem joinSelector_bits (x : Field) : joinSelector (selBits x) (ignoredBits x) = x := by
  unfold selBits joinSelector ignoredBits
  ext k hk
  by_cases h : k < 10
  · simp [h, BitVec.getLsbD_eq_getElem hk]
  · have h1 : 10 + (k - 10) = k := by omega
    have h2 : k - 10 < 2 := by omega
    simp [h, h1, h2, BitVec.getLsbD_eq_getElem hk]

end Sys2Proof
end

