-- ==== Sys2Proof/Laws/Flags.lean ====
section
/-! SUPPORT. The signed reading of R7 is the library's. -/

namespace Sys2Proof.Machine

theorem s16_eq_toInt (w : Word) : s16 w = w.toInt := by
  have := w.isLt
  unfold s16
  rw [BitVec.toInt_eq_toNat_cond]
  split <;> split <;> omega

theorem s16_bounds (w : Word) : -32768 ≤ s16 w ∧ s16 w ≤ 32767 := by
  have := w.isLt
  unfold s16
  split <;> omega

end Sys2Proof.Machine
end

