-- ==== Sys2Proof/Laws/Memory.lean ====
section
/-! SUPPORT. The laws of the word memory: a read after a write, every other address, and the canonical form. -/

namespace Sys2Proof.Machine

@[simp] theorem Memory.get_nil (a : Nat) : Memory.get [] a = Config.unwrittenWord := rfl

theorem Memory.get_cons (b : Nat) (w : Word) (m : Memory) (a : Nat) :
    Memory.get ((b, w) :: m) a = if a = b then w else Memory.get m a := rfl

theorem Memory.get_erase (m : Memory) (a a' : Nat) :
    (m.erase a).get a' = if a' = a then Config.unwrittenWord else m.get a' := by
  induction m with
  | nil => simp [Memory.erase]
  | cons c rest ih =>
    obtain ⟨b, w⟩ := c
    by_cases hab : a = b
    · subst hab
      by_cases h : a' = a <;> simp_all [Memory.erase, Memory.get_cons]
    · by_cases h : a' = b
      · subst h; simp [Memory.erase, Memory.get_cons, hab, Ne.symm hab]
      · simp [Memory.erase, Memory.get_cons, hab, h, ih]

theorem Memory.not_listed_erase (m : Memory) (a : Nat) : ∀ c ∈ m.erase a, c.1 ≠ a := by
  induction m with
  | nil => simp [Memory.erase]
  | cons c rest ih =>
    obtain ⟨b, w⟩ := c
    by_cases hab : a = b
    · simpa [Memory.erase, hab] using fun x y h => ih (x, y) (hab ▸ h)
    · simpa [Memory.erase, hab] using ⟨Ne.symm hab, fun x y h => ih (x, y) h⟩

theorem Memory.get_insertCell (m : Memory) (a : Nat) (v : Word) (a' : Nat) (h : ∀ c ∈ m, c.1 ≠ a) :
    (m.insertCell a v).get a' = if a' = a then v else m.get a' := by
  induction m with
  | nil => simp [Memory.insertCell, Memory.get_cons]
  | cons c rest ih =>
    obtain ⟨b, w⟩ := c
    have hba : b ≠ a := h _ List.mem_cons_self
    have ih' := ih fun c hc => h c (List.mem_cons_of_mem _ hc)
    by_cases hlt : a < b
    · simp [Memory.insertCell, hlt, Memory.get_cons]
    · by_cases h' : a' = b
      · subst h'; simp [Memory.insertCell, hlt, Memory.get_cons, hba]
      · simp [Memory.insertCell, hlt, Memory.get_cons, h', ih']

/-- Reading after a write, at any address of any memory. -/
theorem Memory.get_set (m : Memory) (a : Nat) (v : Word) (a' : Nat) :
    (m.set a v).get a' = if a' = a then v else m.get a' := by
  unfold Memory.set
  split
  · next h => simp [Memory.get_erase, h]
  · rw [Memory.get_insertCell _ _ _ _ (Memory.not_listed_erase m a), Memory.get_erase]
    by_cases h : a' = a <;> simp [h]

@[simp] theorem Memory.get_set_same (m : Memory) (a : Nat) (v : Word) : (m.set a v).get a = v := by
  simp [Memory.get_set]

theorem Memory.get_set_other (m : Memory) {a a' : Nat} (v : Word) (h : a' ≠ a) : (m.set a v).get a' = m.get a' := by
  simp [Memory.get_set, h]

theorem Memory.risesAbove_mono (m : Memory) {b c : Nat} (h : b ≤ c) (hm : m.risesAbove c = true) :
    m.risesAbove b = true := by
  cases m with
  | nil => rfl
  | cons x rest =>
    obtain ⟨a, v⟩ := x
    simp only [Memory.risesAbove, Bool.and_eq_true, decide_eq_true_eq] at hm ⊢
    exact ⟨by omega, hm.2⟩

theorem Memory.risesAbove_erase (m : Memory) (a b : Nat) (hm : m.risesAbove b = true) :
    (m.erase a).risesAbove b = true := by
  induction m generalizing b with
  | nil => rfl
  | cons x rest ih =>
    obtain ⟨c, v⟩ := x
    simp only [Memory.risesAbove, Bool.and_eq_true, decide_eq_true_eq] at hm
    by_cases h : a = c
    · simpa [Memory.erase, h] using h ▸ ih b (Memory.risesAbove_mono rest (by omega) hm.2)
    · simp [Memory.erase, h, Memory.risesAbove, hm.1, ih c hm.2]

theorem Memory.risesAbove_insertCell (m : Memory) (a : Nat) (v : Word) (b : Nat) (hb : b < a)
    (hn : ∀ c ∈ m, c.1 ≠ a) (hm : m.risesAbove b = true) : (m.insertCell a v).risesAbove b = true := by
  induction m generalizing b with
  | nil => simp [Memory.insertCell, Memory.risesAbove, hb]
  | cons x rest ih =>
    obtain ⟨c, w⟩ := x
    have hc : c ≠ a := hn _ List.mem_cons_self
    simp only [Memory.risesAbove, Bool.and_eq_true, decide_eq_true_eq] at hm
    by_cases hlt : a < c
    · simp [Memory.insertCell, hlt, Memory.risesAbove, hb, hm.2]
    · have := ih c (by omega) (fun d hd => hn d (List.mem_cons_of_mem _ hd)) hm.2
      simp [Memory.insertCell, hlt, Memory.risesAbove, hm.1, this]

theorem Memory.rises_of_risesAbove (m : Memory) (b : Nat) (h : m.risesAbove b = true) : m.rises = true := by
  cases m with
  | nil => rfl
  | cons x rest =>
    obtain ⟨a, v⟩ := x
    simp only [Memory.risesAbove, Bool.and_eq_true] at h
    exact h.2

theorem Memory.rises_erase (m : Memory) (a : Nat) (h : m.rises = true) : (m.erase a).rises = true := by
  cases m with
  | nil => rfl
  | cons x rest =>
    obtain ⟨b, w⟩ := x
    have h' : Memory.risesAbove b rest = true := h
    by_cases hab : a = b
    · simpa [Memory.erase, hab] using Memory.rises_of_risesAbove _ b (Memory.risesAbove_erase rest b b h')
    · simpa [Memory.erase, hab, Memory.rises] using Memory.risesAbove_erase rest a b h'

theorem Memory.rises_insertCell (m : Memory) (a : Nat) (v : Word) (hn : ∀ c ∈ m, c.1 ≠ a) (h : m.rises = true) :
    (m.insertCell a v).rises = true := by
  cases m with
  | nil => rfl
  | cons x rest =>
    obtain ⟨b, w⟩ := x
    have hba : b ≠ a := hn _ List.mem_cons_self
    have h' : Memory.risesAbove b rest = true := h
    by_cases hlt : a < b
    · simp [Memory.insertCell, hlt, Memory.rises, Memory.risesAbove, h']
    · simpa [Memory.insertCell, hlt, Memory.rises] using
        Memory.risesAbove_insertCell rest a v b (by omega) (fun d hd => hn d (List.mem_cons_of_mem _ hd)) h'

theorem Memory.mem_erase {m : Memory} {a : Nat} {c : MemCell} (h : c ∈ m.erase a) : c ∈ m := by
  induction m with
  | nil => simp [Memory.erase] at h
  | cons x rest ih =>
    obtain ⟨b, w⟩ := x
    by_cases hab : a = b
    · exact List.mem_cons_of_mem _ (ih (by simpa [Memory.erase, hab] using h))
    · rcases List.mem_cons.mp (by simpa [Memory.erase, hab] using h) with h | h
      · exact h ▸ List.mem_cons_self
      · exact List.mem_cons_of_mem _ (ih h)

theorem Memory.mem_insertCell {m : Memory} {a : Nat} {v : Word} {c : MemCell} (h : c ∈ m.insertCell a v) :
    c = (a, v) ∨ c ∈ m := by
  induction m with
  | nil => simpa [Memory.insertCell] using h
  | cons x rest ih =>
    obtain ⟨b, w⟩ := x
    by_cases hlt : a < b
    · simpa [Memory.insertCell, hlt] using h
    · rcases List.mem_cons.mp (by simpa [Memory.insertCell, hlt] using h) with h | h
      · exact .inr (h ▸ List.mem_cons_self)
      · exact (ih h).imp_right (List.mem_cons_of_mem _)

/-- Writing a word that exists keeps the canonical form. -/
theorem Memory.wf_set (m : Memory) (a : Nat) (v : Word) (ha : a < Config.memWords) (h : m.wf = true) :
    (m.set a v).wf = true := by
  simp only [Memory.wf, Bool.and_eq_true, List.all_eq_true, decide_eq_true_eq] at h ⊢
  have herase : ∀ c ∈ m.erase a, c.1 < Config.memWords ∧ c.2 ≠ Config.unwrittenWord := fun c hc =>
    h.2 c (Memory.mem_erase hc)
  unfold Memory.set
  split
  · exact ⟨Memory.rises_erase m a h.1, herase⟩
  · next hv =>
    refine ⟨Memory.rises_insertCell _ _ _ (Memory.not_listed_erase m a) (Memory.rises_erase m a h.1), fun c hc => ?_⟩
    rcases Memory.mem_insertCell hc with rfl | hc
    · exact ⟨ha, hv⟩
    · exact herase c hc

/-- The memory's side of a write keeps the canonical form. -/
theorem Memory.wf_write? {m m' : Memory} {a v : Word} (h : m.wf = true) (hw : m.write? a v = some m') :
    m'.wf = true := by
  unfold Memory.write? at hw
  split at hw
  · next ha => cases hw; exact Memory.wf_set m _ v ha h
  · cases hw

/-- Program load keeps the canonical form, as long as the image ends inside memory. -/
theorem Memory.wf_load (image : List Word) (m : Memory) (a : Nat) (ha : a + image.length ≤ Config.memWords)
    (h : m.wf = true) : (m.load a image).wf = true := by
  induction image generalizing m a with
  | nil => exact h
  | cons w ws ih =>
    simp only [List.length_cons] at ha
    exact ih _ _ (by omega) (Memory.wf_set m a w (by omega) h)

theorem Memory.read?_of_lt (m : Memory) {a : Word} (h : a.toNat < Config.memWords) :
    m.read? a = some (m.get a.toNat) := by simp [Memory.read?, h]

theorem Memory.read?_of_not_lt (m : Memory) {a : Word} (h : ¬a.toNat < Config.memWords) : m.read? a = none := by
  simp [Memory.read?, h]

theorem Memory.write?_of_lt (m : Memory) {a : Word} (v : Word) (h : a.toNat < Config.memWords) :
    m.write? a v = some (m.set a.toNat v) := by simp [Memory.write?, h]

theorem Memory.write?_of_not_lt (m : Memory) {a : Word} (v : Word) (h : ¬a.toNat < Config.memWords) :
    m.write? a v = none := by simp [Memory.write?, h]

end Sys2Proof.Machine
end

