-- ==== Sys2Proof/Laws/Ops.lean ====
section
/-! SUPPORT. One equation for each way a shared operation can go, and one inversion lemma for each: what it answers. -/

namespace Sys2Proof.Machine

theorem pcSucc_of_ne {pc : Word} (h : pc ≠ 0xFFFF#16) : pcSucc pc = pc + 1 := by simp [pcSucc, h]

/-- Where the spec defines an increment, it is plus one. -/
theorem pcSucc_of_lt {pc : Word} (h : pc.toNat < 65535) : pcSucc pc = pc + 1 :=
  pcSucc_of_ne fun h' => by simp [h'] at h

theorem memRead_of_valid (kind : FaultKind) {a : Word} (s : State) (k : Word → Result)
    (h : a.toNat < Config.memWords) : memRead kind a s k = k (s.mem.get a.toNat) := by
  simp [memRead, Memory.read?_of_lt _ h]

theorem memRead_of_invalid (kind : FaultKind) {a : Word} (s : State) (k : Word → Result)
    (h : ¬a.toNat < Config.memWords) : memRead kind a s k = .next (raise (.memBounds a kind) s) := by
  simp [memRead, Memory.read?_of_not_lt _ h]

/-- Everything a checked read can do. -/
theorem memRead_cases (kind : FaultKind) (a : Word) (s : State) (k : Word → Result) :
    (a.toNat < Config.memWords ∧ memRead kind a s k = k (s.mem.get a.toNat)) ∨
      (¬a.toNat < Config.memWords ∧ memRead kind a s k = .next (raise (.memBounds a kind) s)) := by
  by_cases h : a.toNat < Config.memWords
  · exact .inl ⟨h, memRead_of_valid kind s k h⟩
  · exact .inr ⟨h, memRead_of_invalid kind s k h⟩

theorem memWrite_of_valid {a : Word} (v : Word) (s : State) (k : State → Result) (h : a.toNat < Config.memWords) :
    memWrite a v s k = k { s with mem := s.mem.set a.toNat v } := by
  simp [memWrite, Memory.write?_of_lt _ v h]

theorem memWrite_of_invalid {a : Word} (v : Word) (s : State) (k : State → Result)
    (h : ¬a.toNat < Config.memWords) : memWrite a v s k = .next (raise (.memBounds a .write) s) := by
  simp [memWrite, Memory.write?_of_not_lt _ v h]

/-- Everything a checked write can do. -/
theorem memWrite_cases (a v : Word) (s : State) (k : State → Result) :
    (a.toNat < Config.memWords ∧ memWrite a v s k = k { s with mem := s.mem.set a.toNat v }) ∨
      (¬a.toNat < Config.memWords ∧ memWrite a v s k = .next (raise (.memBounds a .write) s)) := by
  by_cases h : a.toNat < Config.memWords
  · exact .inl ⟨h, memWrite_of_valid v s k h⟩
  · exact .inr ⟨h, memWrite_of_invalid v s k h⟩

theorem fetch_of_valid (s : State) (k : State → Result) (h : s.pc.toNat < Config.memWords) :
    fetch s k = k (fetched (s.mem.get s.pc.toNat) s) := by
  simp [fetch, memRead_of_valid _ _ _ h]

theorem fetch_of_invalid (s : State) (k : State → Result) (h : ¬s.pc.toNat < Config.memWords) :
    fetch s k = .next (raise (.memBounds s.pc .fetch) { s with mar := s.pc }) := by
  simp [fetch, memRead_of_invalid _ _ _ h]

/-- Everything the second access of AddIndirect and the first can do. -/
theorem indirectOperand_cases (s : State) (k : Word → Result) :
    (s.mar.toNat < Config.memWords ∧ (s.mem.get s.mar.toNat).toNat < Config.memWords ∧
        indirectOperand s k = k (s.mem.get (s.mem.get s.mar.toNat).toNat)) ∨
      (s.mar.toNat < Config.memWords ∧ ¬(s.mem.get s.mar.toNat).toNat < Config.memWords ∧
        indirectOperand s k = .next (raise (.memBounds (s.mem.get s.mar.toNat) .read) s)) ∨
      (¬s.mar.toNat < Config.memWords ∧ indirectOperand s k = .next (raise (.memBounds s.mar .read) s)) := by
  unfold indirectOperand directOperand directAddress
  rcases memRead_cases .read s.mar s (fun p => memRead .read p s k) with ⟨h, e⟩ | ⟨h, e⟩
  · rcases memRead_cases .read (s.mem.get s.mar.toNat) s k with ⟨h', e'⟩ | ⟨h', e'⟩
    · exact .inl ⟨h, h', e.trans e'⟩
    · exact .inr (.inl ⟨h, h', e.trans e'⟩)
  · exact .inr (.inr ⟨h, e⟩)

/-- Everything a request of the input port can do. -/
theorem takeInput_cases (s : State) :
    (s.inStream = [] ∧ takeInput s = .next { s with inputWait := true }) ∨
      ∃ v rest, s.inStream = v :: rest ∧
        takeInput s = .next { s with inReg := v, ac := v, inStream := rest, inputWait := false } := by
  unfold takeInput
  split
  · next v rest h => exact .inr ⟨v, rest, h, rfl⟩
  · next h => exact .inl ⟨h, rfl⟩

end Sys2Proof.Machine
end

