-- ==== Sys2Proof/Laws/PerInstr.lean ====
section
/-! SUPPORT. Statements about every instruction, made constructor by constructor. FieldsInRange: an instruction's opcode code
and operand are in the range over which encode and decode are inverse (R66). -/

namespace Sys2Proof.Laws.FieldsInRange

/-- The pair of R63 that `i` stands for is in range. -/
def Statement (i : Instr) : Prop := i.wf = true

theorem fields_wf_of_code {o : Opcode} {x : Field} : (Fields.mk o.code.toNat x.toNat).wf = true := by
  have : o.code.toNat < 13 := by cases o <;> decide
  simp [Fields.wf, Config.numOpcodes, this, x.isLt]

theorem jumpAndStore (x : Field) : Statement (.jumpAndStore x) := fields_wf_of_code
theorem load (x : Field) : Statement (.load x) := fields_wf_of_code
theorem store (x : Field) : Statement (.store x) := fields_wf_of_code
theorem add (x : Field) : Statement (.add x) := fields_wf_of_code
theorem subtract (x : Field) : Statement (.subtract x) := fields_wf_of_code
theorem input (ign : Field) : Statement (.input ign) := fields_wf_of_code
theorem output (ign : Field) : Statement (.output ign) := fields_wf_of_code
theorem halt (ign : Field) : Statement (.halt ign) := fields_wf_of_code
theorem skipCond (sel : SkipSel) (ign : BitVec 10) : Statement (.skipCond sel ign) := fields_wf_of_code
theorem jump (x : Field) : Statement (.jump x) := fields_wf_of_code
theorem clear (ign : Field) : Statement (.clear ign) := fields_wf_of_code
theorem addIndirect (x : Field) : Statement (.addIndirect x) := fields_wf_of_code
theorem jumpIndirect (x : Field) : Statement (.jumpIndirect x) := fields_wf_of_code

end Sys2Proof.Laws.FieldsInRange
end

