-- ==== Sys2Proof/Laws/State.lean ====
section
/-! SUPPORT. One lemma per field of the state for each named update, and what a program load can do. -/

namespace Sys2Proof.Machine

@[simp] theorem latchField_ac (x : Field) (s : State) : (latchField x s).ac = s.ac := rfl
@[simp] theorem latchField_mar (x : Field) (s : State) : (latchField x s).mar = zext16 x := rfl
@[simp] theorem latchField_mbr (x : Field) (s : State) : (latchField x s).mbr = s.mbr := rfl
@[simp] theorem latchField_pc (x : Field) (s : State) : (latchField x s).pc = s.pc := rfl
@[simp] theorem latchField_ir (x : Field) (s : State) : (latchField x s).ir = s.ir := rfl
@[simp] theorem latchField_inReg (x : Field) (s : State) : (latchField x s).inReg = s.inReg := rfl
@[simp] theorem latchField_outReg (x : Field) (s : State) : (latchField x s).outReg = s.outReg := rfl
@[simp] theorem latchField_run (x : Field) (s : State) : (latchField x s).run = s.run := rfl
@[simp] theorem latchField_faultCause (x : Field) (s : State) : (latchField x s).faultCause = s.faultCause := rfl
@[simp] theorem latchField_faultInfo (x : Field) (s : State) : (latchField x s).faultInfo = s.faultInfo := rfl
@[simp] theorem latchField_faultKind (x : Field) (s : State) : (latchField x s).faultKind = s.faultKind := rfl
@[simp] theorem latchField_mem (x : Field) (s : State) : (latchField x s).mem = s.mem := rfl
@[simp] theorem latchField_inStream (x : Field) (s : State) : (latchField x s).inStream = s.inStream := rfl
@[simp] theorem latchField_outTrace (x : Field) (s : State) : (latchField x s).outTrace = s.outTrace := rfl
@[simp] theorem latchField_inputWait (x : Field) (s : State) : (latchField x s).inputWait = s.inputWait := rfl

@[simp] theorem raise_ac (r : Raise) (s : State) : (raise r s).ac = s.ac := rfl
@[simp] theorem raise_mar (r : Raise) (s : State) : (raise r s).mar = s.mar := rfl
@[simp] theorem raise_mbr (r : Raise) (s : State) : (raise r s).mbr = s.mbr := rfl
@[simp] theorem raise_pc (r : Raise) (s : State) : (raise r s).pc = s.pc := rfl
@[simp] theorem raise_ir (r : Raise) (s : State) : (raise r s).ir = s.ir := rfl
@[simp] theorem raise_inReg (r : Raise) (s : State) : (raise r s).inReg = s.inReg := rfl
@[simp] theorem raise_outReg (r : Raise) (s : State) : (raise r s).outReg = s.outReg := rfl
@[simp] theorem raise_run (r : Raise) (s : State) : (raise r s).run = .faulted := rfl
@[simp] theorem raise_faultCause (r : Raise) (s : State) : (raise r s).faultCause = r.cause := rfl
@[simp] theorem raise_faultInfo (r : Raise) (s : State) : (raise r s).faultInfo = r.info := rfl
@[simp] theorem raise_faultKind (r : Raise) (s : State) : (raise r s).faultKind = r.kind := rfl
@[simp] theorem raise_mem (r : Raise) (s : State) : (raise r s).mem = s.mem := rfl
@[simp] theorem raise_inStream (r : Raise) (s : State) : (raise r s).inStream = s.inStream := rfl
@[simp] theorem raise_outTrace (r : Raise) (s : State) : (raise r s).outTrace = s.outTrace := rfl
@[simp] theorem raise_inputWait (r : Raise) (s : State) : (raise r s).inputWait = s.inputWait := rfl

@[simp] theorem fetched_ac (w : Word) (s : State) : (fetched w s).ac = s.ac := rfl
@[simp] theorem fetched_mar (w : Word) (s : State) : (fetched w s).mar = s.pc := rfl
@[simp] theorem fetched_mbr (w : Word) (s : State) : (fetched w s).mbr = w := rfl
@[simp] theorem fetched_pc (w : Word) (s : State) : (fetched w s).pc = pcSucc s.pc := rfl
@[simp] theorem fetched_ir (w : Word) (s : State) : (fetched w s).ir = w := rfl
@[simp] theorem fetched_inReg (w : Word) (s : State) : (fetched w s).inReg = s.inReg := rfl
@[simp] theorem fetched_outReg (w : Word) (s : State) : (fetched w s).outReg = s.outReg := rfl
@[simp] theorem fetched_run (w : Word) (s : State) : (fetched w s).run = s.run := rfl
@[simp] theorem fetched_faultCause (w : Word) (s : State) : (fetched w s).faultCause = s.faultCause := rfl
@[simp] theorem fetched_faultInfo (w : Word) (s : State) : (fetched w s).faultInfo = s.faultInfo := rfl
@[simp] theorem fetched_faultKind (w : Word) (s : State) : (fetched w s).faultKind = s.faultKind := rfl
@[simp] theorem fetched_mem (w : Word) (s : State) : (fetched w s).mem = s.mem := rfl
@[simp] theorem fetched_inStream (w : Word) (s : State) : (fetched w s).inStream = s.inStream := rfl
@[simp] theorem fetched_outTrace (w : Word) (s : State) : (fetched w s).outTrace = s.outTrace := rfl
@[simp] theorem fetched_inputWait (w : Word) (s : State) : (fetched w s).inputWait = s.inputWait := rfl

@[simp] theorem emit_ac (v : Word) (s : State) : (emit v s).ac = s.ac := rfl
@[simp] theorem emit_mar (v : Word) (s : State) : (emit v s).mar = s.mar := rfl
@[simp] theorem emit_mbr (v : Word) (s : State) : (emit v s).mbr = s.mbr := rfl
@[simp] theorem emit_pc (v : Word) (s : State) : (emit v s).pc = s.pc := rfl
@[simp] theorem emit_ir (v : Word) (s : State) : (emit v s).ir = s.ir := rfl
@[simp] theorem emit_inReg (v : Word) (s : State) : (emit v s).inReg = s.inReg := rfl
@[simp] theorem emit_outReg (v : Word) (s : State) : (emit v s).outReg = s.outReg := rfl
@[simp] theorem emit_run (v : Word) (s : State) : (emit v s).run = s.run := rfl
@[simp] theorem emit_faultCause (v : Word) (s : State) : (emit v s).faultCause = s.faultCause := rfl
@[simp] theorem emit_faultInfo (v : Word) (s : State) : (emit v s).faultInfo = s.faultInfo := rfl
@[simp] theorem emit_faultKind (v : Word) (s : State) : (emit v s).faultKind = s.faultKind := rfl
@[simp] theorem emit_mem (v : Word) (s : State) : (emit v s).mem = s.mem := rfl
@[simp] theorem emit_inStream (v : Word) (s : State) : (emit v s).inStream = s.inStream := rfl
@[simp] theorem emit_outTrace (v : Word) (s : State) : (emit v s).outTrace = s.outTrace ++ [v] := rfl
@[simp] theorem emit_inputWait (v : Word) (s : State) : (emit v s).inputWait = s.inputWait := rfl

@[simp] theorem supplyInput_ac (v : Word) (s : State) : (s.supplyInput v).ac = s.ac := rfl
@[simp] theorem supplyInput_mar (v : Word) (s : State) : (s.supplyInput v).mar = s.mar := rfl
@[simp] theorem supplyInput_mbr (v : Word) (s : State) : (s.supplyInput v).mbr = s.mbr := rfl
@[simp] theorem supplyInput_pc (v : Word) (s : State) : (s.supplyInput v).pc = s.pc := rfl
@[simp] theorem supplyInput_ir (v : Word) (s : State) : (s.supplyInput v).ir = s.ir := rfl
@[simp] theorem supplyInput_inReg (v : Word) (s : State) : (s.supplyInput v).inReg = s.inReg := rfl
@[simp] theorem supplyInput_outReg (v : Word) (s : State) : (s.supplyInput v).outReg = s.outReg := rfl
@[simp] theorem supplyInput_run (v : Word) (s : State) : (s.supplyInput v).run = s.run := rfl
@[simp] theorem supplyInput_faultCause (v : Word) (s : State) : (s.supplyInput v).faultCause = s.faultCause := rfl
@[simp] theorem supplyInput_faultInfo (v : Word) (s : State) : (s.supplyInput v).faultInfo = s.faultInfo := rfl
@[simp] theorem supplyInput_faultKind (v : Word) (s : State) : (s.supplyInput v).faultKind = s.faultKind := rfl
@[simp] theorem supplyInput_mem (v : Word) (s : State) : (s.supplyInput v).mem = s.mem := rfl
@[simp] theorem supplyInput_inStream (v : Word) (s : State) : (s.supplyInput v).inStream = s.inStream ++ [v] := rfl
@[simp] theorem supplyInput_outTrace (v : Word) (s : State) : (s.supplyInput v).outTrace = s.outTrace := rfl
@[simp] theorem supplyInput_inputWait (v : Word) (s : State) : (s.supplyInput v).inputWait = s.inputWait := rfl

/-- A load answers a state only for a freshly reset core and an image that fits, and then only memory is new. -/
theorem load_eq_some {image : List Word} {s t : State} :
    s.load image = some t ↔
      s.freshlyReset ∧ imageFits image = true ∧ t = { s with mem := s.mem.load Config.loadBase image } := by
  unfold State.load
  split
  · next h => exact ⟨fun e => ⟨h.1, h.2, (Option.some.inj e).symm⟩, fun e => congrArg some e.2.2.symm⟩
  · next h => exact ⟨nofun, fun e => absurd ⟨e.1, e.2.1⟩ h⟩

end Sys2Proof.Machine
end

