-- ==== Sys2Proof/Laws/Step.lean ====
section
/-! SUPPORT. What a step can do, said once. -/

namespace Sys2Proof.Machine

theorem decodeAndExecute_of_instr {s : State} {w : Word} {i : Instr} (hw : s.ir = w) (h : decode w = .instr i) :
    decodeAndExecute s = exec i s := by simp [decodeAndExecute, hw, h]

theorem decodeAndExecute_of_undefined {s : State} {w : Word} {c : BitVec 4} (hw : s.ir = w)
    (h : decode w = .undefinedOpcode c) : decodeAndExecute s = illegalOpcode s := by
  simp [decodeAndExecute, hw, h]

/-- A step of a run of any machine. -/
theorem run_succ_of_next (M : Host.Core) (k : Nat) (s t : M.State) (h : M.step s = .next t) :
    M.run (k + 1) s = M.run k t := by simp [Host.Core.run, h]

/-- A step of a run of this machine. -/
theorem core_run_of_next {s t : State} (k : Nat) (h : step s = .next t) :
    Sys2Proof.core.run (k + 1) s = Sys2Proof.core.run k t := run_succ_of_next Sys2Proof.core k s t h

/-- The five ways a step goes: a terminal state, a waiting Input, a failed fetch, an undefined opcode, an instruction. -/
theorem step_cases (s : State) :
    (s.run ≠ .running ∧ step s = .next s) ∨
      (s.run = .running ∧ s.inputWait = true ∧ step s = takeInput s) ∨
      (s.run = .running ∧ s.inputWait = false ∧ ¬s.pc.toNat < Config.memWords ∧
        step s = .next (raise (.memBounds s.pc .fetch) { s with mar := s.pc })) ∨
      (s.run = .running ∧ s.inputWait = false ∧ s.pc.toNat < Config.memWords ∧
        ∃ c, decode (s.mem.get s.pc.toNat) = .undefinedOpcode c ∧
          step s = illegalOpcode (fetched (s.mem.get s.pc.toNat) s)) ∨
      (s.run = .running ∧ s.inputWait = false ∧ s.pc.toNat < Config.memWords ∧
        ∃ i, decode (s.mem.get s.pc.toNat) = .instr i ∧ step s = exec i (fetched (s.mem.get s.pc.toNat) s)) := by
  by_cases hr : s.run = .running
  · by_cases hw : s.inputWait = true
    · exact .inr (.inl ⟨hr, hw, by simp [step, hr, hw, resumeInput]⟩)
    · have hw' : s.inputWait = false := by simpa using hw
      have hs : step s = fetch s decodeAndExecute := by simp [step, hr, hw']
      by_cases hp : s.pc.toNat < Config.memWords
      · rw [fetch_of_valid s _ hp] at hs
        cases hd : decode (s.mem.get s.pc.toNat) with
        | instr i =>
          exact .inr (.inr (.inr (.inr ⟨hr, hw', hp, i, rfl, hs.trans (decodeAndExecute_of_instr rfl hd)⟩)))
        | undefinedOpcode c =>
          exact .inr (.inr (.inr (.inl ⟨hr, hw', hp, c, rfl, hs.trans (decodeAndExecute_of_undefined rfl hd)⟩)))
      · exact .inr (.inr (.inl ⟨hr, hw', hp, hs.trans (fetch_of_invalid s _ hp)⟩))
  · refine .inl ⟨hr, ?_⟩
    cases h : s.run with
    | running => exact absurd h hr
    | halted => simp [step, h, terminalStep]
    | faulted => simp [step, h, terminalStep]

end Sys2Proof.Machine
end

