-- ==== Sys2Proof/Tests/Slice0.lean ====
section
/-! SUPPORT. The model's own tests. Every expected value comes from the spec: the vectors of 95_test_vectors.md (named in each
comment), or the encodings of 30_encoding.md written out bit by bit. After them, one witness for each hypothesis of a
statement. -/

namespace Sys2Proof.Tests

open Sys2Proof.Machine

/-- A reset core with another `PC`, `AC` and memory. -/
def at_ (pc ac : Word) (mem : Memory) : State := { State.reset with pc := pc, ac := ac, mem := mem }

/-- The state an outcome answers. -/
def answer : Result → Option State
  | .next t => some t
  | .fault _ => none
  | .refused _ => none

/-- Some fields of the state after one step. -/
def after {α : Type} (s : State) (look : State → α) : Option α := (answer (step s)).map look

/-- `RUN` and the fault record. -/
structure Status where
  run : RunState
  cause : FaultCause
  info : Word
  kind : FaultKind
deriving DecidableEq

/-- The status a state shows. -/
def shown (t : State) : Status := ⟨t.run, t.faultCause, t.faultInfo, t.faultKind⟩

/-! ## Well-formedness: each check refuses an ill-formed term -/

theorem test_wf_code_13 : (Fields.mk 13 0).wf = false := by decide
theorem test_wf_operand_4096 : (Fields.mk 1 4096).wf = false := by decide
theorem test_wf_largest_pair : (Fields.mk 12 4095).wf = true := by decide
theorem test_image_512 : imageFits (List.replicate 512 0) = false := by
  simp only [imageFits, List.length_replicate]; decide
theorem test_image_511 : imageFits (List.replicate 511 0) = true := by
  simp only [imageFits, List.length_replicate]; decide
theorem test_load_refuses_512 : State.load (List.replicate 512 0) State.reset = none := by
  simp only [State.load, imageFits, List.length_replicate]; decide
theorem test_load_refused_after_a_step : after (at_ 1 0 [(1, 0xA000)]) (State.load [7]) = some none := by decide
theorem test_load_refused_after_the_zero_word : after State.reset (State.load [7]) = some none := by decide
theorem test_dump_refused_while_running : State.reset.memoryDump = none := by decide
theorem test_memory_unsorted : Memory.wf [(2, 1), (1, 1)] = false := by decide
theorem test_memory_zero_entry : Memory.wf [(1, 0)] = false := by decide
theorem test_memory_no_such_word : Memory.wf [(512, 1)] = false := by decide
theorem test_memory_canonical : Memory.wf [(0, 1), (511, 2)] = true := by decide

/-! ## Decode: every constructor from a word written out from its encoding (R62, R67; table EN) -/

theorem test_decode_jumpAndStore : decode 0b0000000000000111#16 = .instr (.jumpAndStore 7) := by decide
theorem test_decode_load : decode 0b0001000001100100#16 = .instr (.load 100) := by decide
theorem test_decode_store : decode 0b0010000000100000#16 = .instr (.store 32) := by decide
theorem test_decode_add : decode 0b0011000000100000#16 = .instr (.add 32) := by decide
theorem test_decode_subtract : decode 0b0100000000100001#16 = .instr (.subtract 33) := by decide
theorem test_decode_input : decode 0b0101000000000000#16 = .instr (.input 0) := by decide
theorem test_decode_output : decode 0b0110000000000000#16 = .instr (.output 0) := by decide
theorem test_decode_halt : decode 0b0111101010111100#16 = .instr (.halt 0xABC) := by decide
theorem test_decode_skipCond_lt : decode 0b1000001111111111#16 = .instr (.skipCond .ltZero 0x3FF) := by decide
theorem test_decode_skipCond_eq : decode 0b1000010000000000#16 = .instr (.skipCond .eqZero 0) := by decide
theorem test_decode_skipCond_gt : decode 0b1000100000000000#16 = .instr (.skipCond .gtZero 0) := by decide
theorem test_decode_skipCond_never : decode 0b1000111111111111#16 = .instr (.skipCond .never 0x3FF) := by decide
theorem test_decode_jump : decode 0b1001001001011000#16 = .instr (.jump 600) := by decide
theorem test_decode_clear : decode 0b1010000000000000#16 = .instr (.clear 0) := by decide
theorem test_decode_addIndirect : decode 0b1011000000100000#16 = .instr (.addIndirect 32) := by decide
theorem test_decode_jumpIndirect : decode 0b1100000000010100#16 = .instr (.jumpIndirect 20) := by decide
theorem test_decode_D000 : decode 0xD000#16 = .undefinedOpcode 13 := by decide
theorem test_decode_FFFF : decode 0xFFFF#16 = .undefinedOpcode 15 := by decide
theorem test_encode_halt_ignored : encode (.halt 0xABC) = 0x7ABC#16 := by decide
theorem test_encode_skipCond : encode (.skipCond .never 0) = 0x8C00#16 := by decide
/-- `load 4096`: the operand is cut to 12 bits. -/
theorem test_encodeWord_cut : encodeWord (some 1) 4096 = 0x1000#16 := by decide
/-- `dec -5`. -/
theorem test_encodeWord_data : encodeWord none (-5) = 0xFFFB#16 := by decide
theorem test_decodeTableWord : decodeTableWord 16 0xC014 = some (.jumpIndirect 20) := by decide
theorem test_rows_do_not_overlap : opcodeTable.Pairwise (fun a b => a.pattern ≠ b.pattern ∧ a.mask = b.mask) := by decide

/-! ## One step of each instruction (95_test_vectors.md) -/

/-- LS2. -/
theorem test_load_negative : after (at_ 1 0 [(1, 0x1002), (2, 0xFFFB)]) (fun t => (t.ac, t.pc, t.mar, t.mbr, t.run)) = some (0xFFFB#16, 2#16, 2#16, 0x1002#16, .running) := by decide

/-- LS6. -/
theorem test_load_512_faults : after (at_ 1 0x1111 [(1, 0x1200)]) (fun t => (t.ac, t.pc, t.mar, shown t)) = some (0x1111#16, 2#16, 0x200#16, ⟨.faulted, .memBounds, 512#16, .read⟩) := by decide

/-- LS9. -/
theorem test_store_over_itself : after (at_ 1 0x7000 [(1, 0x2001)]) (fun t => (t.mem, t.ir, t.pc)) = some ([(1, 0x7000#16)], 0x2001#16, 2#16) := by decide

/-- S8. -/
theorem test_store_600_faults : after (at_ 1 0 [(1, 0x2258)]) (fun t => (t.mem, shown t)) = some ([(1, 0x2258#16)], ⟨.faulted, .memBounds, 600#16, .write⟩) := by decide

/-- AR2. -/
theorem test_add_overflow : after (at_ 1 0x7FFF [(1, 0x3020), (32, 1)]) (fun t => (t.ac, t.run)) = some (0x8000#16, .running) := by decide

/-- AR6. -/
theorem test_add_own_word : after (at_ 1 1 [(1, 0x3001)]) (fun t => (t.ac, t.mem)) = some (0x3002#16, [(1, 0x3001#16)]) := by decide

/-- AR8. -/
theorem test_subtract_negative : after (at_ 1 3 [(1, 0x4021), (33, 5)]) (fun t => (t.ac, t.pc)) = some (0xFFFE#16, 2#16) := by decide

/-- AR10. -/
theorem test_subtract_min : after (at_ 1 0 [(1, 0x4021), (33, 0x8000)]) (fun t => t.ac) = some 0x8000#16 := by decide

/-- AR15. -/
theorem test_clear_ignored_bits : after (at_ 1 0xBEEF [(1, 0xAFFF)]) (fun t => (t.ac, t.mar, t.run)) = some (0#16, 0xFFF#16, .running) := by decide

/-- AR16. -/
theorem test_addIndirect : after (at_ 1 3 [(1, 0xB020), (32, 0x21), (33, 7)]) (fun t => (t.ac, t.mar, t.mbr)) = some (0xA#16, 0x20#16, 0xB020#16) := by decide

/-- AR21. -/
theorem test_addIndirect_pointer_faults : after (at_ 1 1 [(1, 0xB020), (32, 0x1234)]) (fun t => (t.ac, t.mar, shown t)) = some (1#16, 0x20#16, ⟨.faulted, .memBounds, 4660#16, .read⟩) := by decide

/-- CT4. -/
theorem test_jump_600 : after (at_ 1 0 [(1, 0x9258)]) (fun t => (t.pc, t.mar, t.run)) = some (600#16, 0x258#16, .running) := by decide

/-- CT8. -/
theorem test_jumpIndirect_all_bits : after (at_ 1 0 [(1, 0xC014), (20, 0xFFFF)]) (fun t => (t.pc, t.mar, t.run)) = some (0xFFFF#16, 0x14#16, .running) := by decide

/-- CT10. -/
theorem test_jumpIndirect_faults : after (at_ 1 0 [(1, 0xC200)]) (fun t => (t.pc, shown t)) = some (2#16, ⟨.faulted, .memBounds, 512#16, .read⟩) := by decide

/-- CT12. -/
theorem test_jumpAndStore : after (at_ 3 0x55 [(3, 0xA)]) (fun t => (t.ac, t.pc, t.mem)) = some (0x55#16, 11#16, [(3, 0xA#16), (10, 4#16)]) := by decide

/-- CT15. -/
theorem test_jumpAndStore_faults : after (at_ 1 0 [(1, 0x200)]) (fun t => (t.pc, t.mem, shown t)) = some (2#16, [(1, 0x200#16)], ⟨.faulted, .memBounds, 512#16, .write⟩) := by decide

/-- SK. -/
theorem test_skipCond_negative : after (at_ 4 0x8000 [(4, 0x8000)]) (fun t => t.pc) = some 6#16 := by decide

/-- SK3. -/
theorem test_skipCond_not_positive : after (at_ 4 0 [(4, 0x8BFF)]) (fun t => (t.pc, t.mar)) = some (5#16, 0xBFF#16) := by decide

/-- IO3. -/
theorem test_input_ignored_bits : after ({ at_ 1 0x1111 [(1, 0x5ABC)] with inStream := [0x41, 7] }) (fun t => (t.ac, t.inReg, t.inStream, t.mar)) = some (0x41#16, 0x41#16, [7#16], 0xABC#16) := by decide

/-- IO9. -/
theorem test_input_waits : after (at_ 1 0 [(1, 0x5000)]) (fun t => (t.pc, t.ir, t.ac, t.inReg, t.run, t.inputWait)) = some (2#16, 0x5000#16, 0#16, 0#16, .running, true) := by decide

/-- IO5. -/
theorem test_output : after ({ at_ 1 0xFFFB [(1, 0x6000)] with outTrace := [1] }) (fun t => (t.ac, t.outReg, t.outTrace)) = some (0xFFFB#16, 0xFFFB#16, [1#16, 0xFFFB#16]) := by decide

/-- IO7. -/
theorem test_halt_ignored_bits : after (at_ 1 0 [(1, 0x7ABC)]) (fun t => (t.pc, t.mar, shown t)) = some (2#16, 0xABC#16, ⟨.halted, .none, 0#16, .none⟩) := by decide

/-- FL1. -/
theorem test_fetch_512 : after ({ at_ 512 1 [] with mbr := 0xA000, ir := 0xA000 }) (fun t => (t.pc, t.mar, t.mbr, t.ir, shown t)) = some (512#16, 0x200#16, 0xA000#16, 0xA000#16, ⟨.faulted, .memBounds, 512#16, .fetch⟩) := by decide

/-- FL4. -/
theorem test_undefined_opcode : after (at_ 1 0x42 [(1, 0xE123)]) (fun t => (t.ac, t.pc, t.mar, t.ir, shown t)) = some (0x42#16, 2#16, 0x123#16, 0xE123#16, ⟨.faulted, .illegalOpcode, 57635#16, .none⟩) := by decide

/-- CT17. -/
theorem test_zero_word : after (at_ 5 0 []) (fun t => (t.pc, t.mem)) = some (1#16, [(0, 6#16)]) := by decide

/-- IO8: after Halt no step is taken. -/
theorem test_halted_stays : answer (step { State.reset with run := .halted }) = some { State.reset with run := .halted } := by
  decide

/-- RS1: reset with the image [0x1003, 0x7000, 0x002A]. -/
theorem test_load_image : (State.load [0x1003, 0x7000, 0x002A] State.reset).map (fun t => (t.mem, t.pc, t.ac)) =
    some ([(1, 0x1003#16), (2, 0x7000#16), (3, 0x2A#16)], 1#16, 0#16) := by decide

/-- Table "Host rendering" of part 2: 0x0041 shows `A`, 0xFFFB shows -5, 0x0030 shows 48. -/
theorem test_show_output : [0x41#16, 0xFFFB#16, 0x30#16].map (showOutput Config.isAlphaDefault) =
    [.character 65, .number (-5), .number 48] := by decide

/-- The word placed by `withFetchWord` runs as the first instruction after reset. -/
theorem test_withFetchWord : after (State.reset.withFetchWord 16 0xA000) (fun t => (t.ir, t.pc)) = some (0xA000#16, 2#16) := by
  decide

/-! ## Witnesses: for each hypothesis of a statement, values that meet it, at the edges of its range -/

/-- A state that fetches the word `w` from address 1. -/
def fetching (w : Word) : State := at_ 1 3 [(1, w), (32, 0x21), (33, 7)]

theorem witness_FieldPairsRoundTrip : (Fields.mk 12 4095).wf = true ∧ (Fields.mk 0 0).wf = true ∧
    (decodeFields 0xCFFF#16).wf = true := by decide
theorem witness_EncodeCutsTheOperand : (12 : Nat) < 13 := by decide
theorem witness_SelectorIsBitsElevenAndTen : (opcodeBits 0x8FFF#16).toNat = 8 ∧ (opcodeBits 0x8000#16).toNat = 8 := by decide
theorem witness_OpcodeMapDecides : (⟨0xF000#16, 0xC000#16, .jumpIndirect⟩ : OpcodeRow) ∈ opcodeTable ∧
    0xC123#16 &&& 0xF000#16 = 0xC000#16 ∧ 0xD000 ≤ (0xD000#16 : Word).toNat := by decide
theorem witness_DecodeAndEncodeAgree : decode 0xCFFF#16 = .instr (.jumpIndirect 0xFFF) ∧
    encode (.skipCond .gtZero 0x3FF) = 0x8BFF#16 := by decide
theorem witness_MemoryPrimitives : Memory.write? [] 511#16 7#16 = some [(511, 7)] ∧ Memory.wf [] = true ∧
    (0#16 : Word) ≠ 511#16 ∧ (511#16 : Word).toNat < 512 ∧ 512 ≤ (512#16 : Word).toNat := by decide
theorem witness_StepRunsDecodedInstruction : (fetching 0x1FFF).fetches 0x1FFF#16 ∧ decode 0x1FFF#16 = .instr (.load 0xFFF) ∧
    (at_ 511 0 [(511, 0xA000)]).fetches 0xA000#16 ∧ decode 0xA000#16 = .instr (.clear 0) := by decide
theorem witness_FetchReadsThenIncrements : (at_ 512 0 []).fetching ∧ 512 ≤ (at_ 512 0 []).pc.toNat ∧
    (at_ 511 0 []).fetching ∧ (at_ 511 0 []).pc.toNat < 512 := by decide
theorem witness_UndefinedOpcodeFaults : (fetching 0xD000).fetches 0xD000#16 ∧ 0xD000 ≤ (0xD000#16 : Word).toNat ∧
    (fetching 0xFFFF).fetches 0xFFFF#16 := by decide
theorem witness_TerminalStatesStay : ({ State.reset with run := .halted } : State).ended ∧
    ({ State.reset with run := .faulted } : State).ended := by decide
/-- The field clauses of the result statements (Load, Store, Add, Subtract, JumpIndirect, JumpAndStore). -/
theorem witness_FieldClauses : (511#12 : Field).toNat < 512 ∧ 512 ≤ (512#12 : Field).toNat := by decide
theorem witness_AddIndirectResult : (32#12 : Field).toNat < 512 ∧
    ((at_ 1 0 [(32, 511)]).mem.get (32#12 : Field).toNat).toNat < 512 ∧
    512 ≤ ((at_ 1 0 [(32, 512)]).mem.get (32#12 : Field).toNat).toNat ∧ 512 ≤ (512#12 : Field).toNat := by decide
theorem witness_SkipCondResult : 0x8000 ≤ (at_ 1 0x8000 []).ac.toNat ∧ (at_ 1 0 []).ac.toNat = 0 ∧
    1 ≤ (at_ 1 1 []).ac.toNat ∧ (at_ 1 0x7FFF []).ac.toNat ≤ 0x7FFF ∧ (at_ 1 0 []).pc ≠ 0xFFFF#16 ∧
    ¬((SkipSel.gtZero = .ltZero ∧ 0x8000 ≤ (at_ 1 0x8000 []).ac.toNat) ∨
      (SkipSel.gtZero = .eqZero ∧ (at_ 1 0x8000 []).ac.toNat = 0) ∨
      (SkipSel.gtZero = .gtZero ∧ 1 ≤ (at_ 1 0x8000 []).ac.toNat ∧ (at_ 1 0x8000 []).ac.toNat ≤ 0x7FFF)) := by decide
theorem witness_InputResult : ({ State.reset with inStream := [7#16] } : State).inStream = 7#16 :: [] := by decide
theorem witness_InputWaits : State.reset.inStream = [] ∧ State.reset.run = .running ∧
    ({ State.reset with inputWait := true } : State).inputWait = true ∧
    ({ State.reset with inputWait := true, inStream := [7#16] } : State).inStream = 7#16 :: [] := by decide
theorem witness_RegisterFrame : exec (.jump 600) State.reset = .next { State.reset with mar := 600, pc := 600 } ∧
    (Instr.jump 600).opcode ∉ [.load, .add, .subtract, .clear, .addIndirect, .input] ∧
    (Instr.clear 0).opcode ∉ [.jump, .jumpIndirect, .jumpAndStore, .skipCond] ∧ (Instr.jump 600).opcode ≠ .input ∧
    (Instr.jump 600).opcode ≠ .output ∧ State.reset.run ≠ .faulted := ⟨rfl, by decide⟩
theorem witness_NonStoringMemoryFrame : (Instr.clear 5).opcode ≠ .store ∧ (Instr.clear 5).opcode ≠ .jumpAndStore ∧
    exec (.clear 5) (at_ 1 9 [(3, 4)]) = .next { at_ 1 9 [(3, 4)] with mar := 5, ac := 0 } := ⟨by decide, by decide, rfl⟩
theorem witness_StoringMemoryFrame :
    exec (.store 511) (at_ 1 9 [(3, 4)]) = .next { at_ 1 9 [(3, 4)] with mar := 511, mem := [(3, 4), (511, 9)] } ∧
    exec (.jumpAndStore 3) (at_ 2 9 [(3, 4)]) = .next { at_ 2 9 [(3, 4)] with mar := 3, mem := [(3, 2)], pc := 4 } ∧
    directAddress (latchField 511 (at_ 1 9 [(3, 4)])) = 511#16 ∧ (3 : Nat) ≠ (511#16 : Word).toNat :=
  ⟨rfl, rfl, by decide, by decide⟩
theorem witness_PortsMoveOneValue :
    exec (.input 0) { State.reset with inStream := [7, 8] } =
      .next { State.reset with inStream := [8], inReg := 7, ac := 7 } ∧
    exec (.input 0) State.reset = .next { State.reset with inputWait := true } ∧
    exec (.output 0) (at_ 1 9 []) = .next { at_ 1 9 [] with outReg := 9, outTrace := [9] } := ⟨rfl, rfl, rfl⟩
theorem witness_OnlyTheWordsReadMatter :
    at_ 1 3 [(32, 0x21), (33, 7)] = { at_ 1 3 [(5, 6), (32, 0x21), (33, 7)] with mem := [(32, 0x21), (33, 7)] } ∧
    (∀ a ∈ dataReads (.addIndirect 32) (at_ 1 3 [(5, 6), (32, 0x21), (33, 7)]),
      Memory.get [(32, 0x21), (33, 7)] a = Memory.get [(5, 6), (32, 0x21), (33, 7)] a) ∧
    exec (.addIndirect 32) (at_ 1 3 [(5, 6), (32, 0x21), (33, 7)]) =
      .next { at_ 1 10 [(5, 6), (32, 0x21), (33, 7)] with mar := 32 } := ⟨by decide, by decide, rfl⟩
/-- A step that faults and one that does not, for each opcode clause of `PcAfterAStep`. -/
theorem witness_PcAfterAStep_fault : (fetching 0x1200).fetches 0x1200#16 ∧
    after (fetching 0x1200) (·.run) = some .faulted := by decide
theorem witness_PcAfterAStep_sequential : (fetching 0x1020).fetches 0x1020#16 ∧
    after (fetching 0x1020) (·.run) = some .running ∧ (opcodeBits 0x1020#16).toNat ∈ [1, 2, 3, 4, 5, 6, 7, 10, 11] := by
  decide
theorem witness_PcAfterAStep_skipCond : (fetching 0x8800).fetches 0x8800#16 ∧
    after (fetching 0x8800) (·.run) = some .running ∧ (opcodeBits 0x8800#16).toNat = 8 := by decide
theorem witness_PcAfterAStep_jump : (fetching 0x9004).fetches 0x9004#16 ∧
    after (fetching 0x9004) (·.run) = some .running ∧ (opcodeBits 0x9004#16).toNat = 9 := by decide
theorem witness_PcAfterAStep_jumpIndirect : (fetching 0xC020).fetches 0xC020#16 ∧
    after (fetching 0xC020) (·.run) = some .running ∧ (opcodeBits 0xC020#16).toNat = 12 := by decide
theorem witness_PcAfterAStep_jumpAndStore : (fetching 0x01FF).fetches 0x01FF#16 ∧
    after (fetching 0x01FF) (·.run) = some .running ∧ (opcodeBits 0x01FF#16).toNat = 0 := by decide
theorem witness_StateAFaultLeaves : (fetching 0x1200).fetches 0x1200#16 ∧ 512 ≤ (fieldBits 0x1200#16).toNat ∧
    (opcodeBits 0x1200#16).toNat ∈ [1, 3, 4, 11, 12] ∧ (fetching 0x2FFF).fetches 0x2FFF#16 ∧
    512 ≤ (fieldBits 0x2FFF#16).toNat ∧ (opcodeBits 0x2FFF#16).toNat ∈ [0, 2] ∧
    (fetching 0xB001).fetches 0xB001#16 ∧ (fieldBits 0xB001#16).toNat < 512 ∧
    512 ≤ ((fetching 0xB001).mem.get (fieldBits 0xB001#16).toNat).toNat ∧ (opcodeBits 0xB001#16).toNat = 11 := by decide
theorem witness_FaultsArePrecise : (fetching 0x2FFF).run = .running ∧
    after (fetching 0x2FFF) (·.run) = some .faulted ∧ after (fetching 0xF000) (·.run) = some .faulted := by decide
theorem witness_ThreeWaysToEnd : (fetching 0x7000).fetching ∧ after (fetching 0x7000) (·.run) = some .halted ∧
    after (fetching 0xF000) (·.faultCause) = some .illegalOpcode ∧ after (fetching 0x1020) (·.run) = some .running := by decide
theorem witness_IgnoredBitsShowOnlyInMar :
    exec (.clear 1) State.reset = .next { State.reset with mar := 1 } ∧
    exec (.halt 1) State.reset = .next { State.reset with mar := 1, run := .halted } ∧
    exec (.input 1) State.reset = .next { State.reset with mar := 1, inputWait := true } ∧
    exec (.output 1) State.reset = .next { State.reset with mar := 1, outTrace := [0] } ∧
    exec (.skipCond .never 1) State.reset = .next { State.reset with mar := 0xC01 } := ⟨rfl, rfl, rfl, rfl, rfl⟩
theorem witness_ZeroWordRestartsAtOne : (at_ 5 0 []).fetches 0 := by decide
theorem witness_LoadAfterStore : (511#12 : Field).toNat < 512 ∧
    exec (.store 511) (at_ 1 9 []) = .next { at_ 1 9 [] with mar := 511, mem := [(511, 9)] } ∧
    (at_ 4 0 [(511, 9)]).mem.get 511 = Memory.get [(511, 9)] 511 := ⟨by decide, rfl, rfl⟩
theorem witness_FetchSeesTheStore : (at_ 1 0x7000 [(1, 0x2002)]).fetches (encode (.store 2)) ∧
    (2#12 : Field).toNat = (at_ 1 0x7000 [(1, 0x2002)]).pc.toNat + 1 ∧ (2#12 : Field).toNat < 512 := by decide
theorem witness_ArithmeticLaws : (511#12 : Field).toNat < 512 := by decide
theorem witness_SignedArithmeticWraps : overflows (s16 0x7FFF + s16 0) = false ∧ overflows (s16 0x7FFF + s16 1) = true ∧
    overflows (s16 0x8000 - s16 0) = false ∧ overflows (s16 0x8000 - s16 1) = true ∧
    overflows (s16 0 - s16 0x8000) = true := by decide
theorem witness_CallAndReturn : (511#12 : Field).toNat < 512 ∧
    exec (.jumpAndStore 511) (at_ 2 0 []) = .next { at_ 2 0 [] with mar := 511, mem := [(511, 2)], pc := 512 } ∧
    (at_ 9 5 [(511, 2)]).mem.get 511 = Memory.get [(511, 2)] 511 := ⟨by decide, rfl, rfl⟩
theorem witness_WaitingInputIsTransparent : (fetching 0x5ABC).fetches (encode (.input 0xABC)) ∧
    (fetching 0x5ABC).inStream = [] ∧ (answer (step (fetching 0x5ABC))).isSome = true := by decide
theorem witness_LoadPlacesTheImage : ([7#16] : List Word).length ≤ 511 ∧ ([7#16] : List Word)[0]? = some 7#16 ∧
    ([7#16] : List Word).length < 2 ∧ (List.replicate 511 (0#16 : Word)).length ≤ 511 ∧
    511 < (List.replicate 512 (0#16 : Word)).length := by
  simp only [List.length_replicate]; decide
theorem witness_StepKeepsTheInvariant : (fetching 0x2020).Inv ∧ (answer (step (fetching 0x2020))).isSome = true := by decide
theorem witness_HostActionsKeepTheInvariant : State.reset.Inv ∧ (State.load [7#16] State.reset).isSome = true := by decide
theorem witness_HostWritesOnlyBeforeTheFirstStep : (State.load [7#16] (State.reset.supplyInput 3)).isSome = true ∧
    State.reset.Inv ∧ (answer (step State.reset)).isSome = true ∧
    ({ State.reset with run := .halted } : State).ended ∧ ({ State.reset with run := .faulted } : State).ended := by decide
theorem witness_MemoryDumpAfterTheEnd : (State.memoryDump { at_ 2 0 [(511, 9)] with run := .halted }).isSome = true ∧
    (511 : Nat) < 512 ∧ ¬State.reset.ended := by decide
theorem witness_CanonicalMemoriesAreEqual : Memory.wf [(3, 4)] = true ∧
    ∀ a, Memory.get [(3, 4)] a = Memory.get (Memory.set [(3, 1)] 3 4) a := ⟨by decide, fun _ => rfl⟩
theorem witness_PlacedWordIsFetched : validAddress (at_ 511 0 []).pc ∧ validAddress State.reset.pc := by decide
theorem witness_HostConversions : Config.isAlphaDefault (0x41#16 : Word).toInt = true ∧
    Config.isAlphaDefault (0x8000#16 : Word).toInt = false := by decide
theorem witness_JumpResult_outside : exec (.jump 600) State.reset = .next { State.reset with mar := 600, pc := 600 } ∧
    ({ State.reset with mar := 600, pc := 600 } : State).fetching ∧ 512 ≤ (600#16 : Word).toNat := ⟨rfl, by decide, by decide⟩
theorem witness_JumpIndirectResult_outside : exec (.jumpIndirect 32) (at_ 1 0 [(32, 512)]) =
      .next { at_ 1 0 [(32, 512)] with mar := 32, pc := 512 } ∧
    ({ at_ 1 0 [(32, 512)] with mar := 32, pc := 512 } : State).fetching ∧ 512 ≤ (512#16 : Word).toNat :=
  ⟨rfl, by decide, by decide⟩
theorem witness_JumpAndStoreResult_outside : exec (.jumpAndStore 511) (at_ 2 0 []) =
      .next { at_ 2 0 [] with mar := 511, mem := [(511, 2)], pc := 512 } ∧
    ({ at_ 2 0 [] with mar := 511, mem := [(511, 2)], pc := 512 } : State).fetching ∧ 512 ≤ (512#16 : Word).toNat :=
  ⟨rfl, by decide, by decide⟩
theorem witness_HaltResult_stays : exec (.halt 5) State.reset = .next { State.reset with mar := 5, run := .halted } ∧
    ({ State.reset with mar := 5, run := .halted } : State).ended := ⟨rfl, by decide⟩

end Sys2Proof.Tests
end

section
/-! PROOFS. Encoding (spec/30_encoding.md): the bit fields of a word as numbers, the document's pair of a code and an operand
in terms of those bit fields, and from these the statements on `decodeFields`, `encodeWord` and the SkipCond selector. -/

namespace Sys2Proof

/-! ### The bit fields as numbers (R61, R63, R64) -/

@[simp] theorem opcodeBits_toNat (w : Word) : (opcodeBits w).toNat = w.toNat / 4096 := by
  have hw : w.toNat / 4096 < 16 := by omega
  simp [opcodeBits, Nat.shiftRight_eq_div_pow, Nat.mod_eq_of_lt hw]

@[simp] theorem fieldBits_toNat (w : Word) : (fieldBits w).toNat = w.toNat % 4096 := by
  simp [fieldBits]

@[simp] theorem zext16_toNat (x : Field) : (zext16 x).toNat = x.toNat := by
  have hx : x.toNat < 65536 := by omega
  simp [zext16, Nat.mod_eq_of_lt hx]

@[simp] theorem selBits_toNat (x : Field) : (selBits x).toNat = x.toNat / 1024 := by
  have hx : x.toNat / 1024 < 4 := by omega
  simp [selBits, Nat.shiftRight_eq_div_pow, Nat.mod_eq_of_lt hx]

/-- A code above a field: the two do not overlap, so joining them adds. -/
@[simp] theorem joinOpcode_toNat (c : BitVec 4) (x : Field) :
    (joinOpcode c x).toNat = c.toNat * 4096 + x.toNat := by
  have hcode := opcodeBits_toNat (joinOpcode c x)
  have hfield := fieldBits_toNat (joinOpcode c x)
  rw [opcodeBits_join] at hcode
  rw [fieldBits_join] at hfield
  omega

/-! ### The document's pair in terms of the bit fields (R63, R65) -/

theorem decodeFields_eq_bits (w : Word) : decodeFields w = ⟨(opcodeBits w).toNat, (fieldBits w).toNat⟩ := by
  have hcode : (w >>> 12).toNat = (opcodeBits w).toNat := by simp [Nat.shiftRight_eq_div_pow]
  have hfield : (w &&& 0x0FFF#16).toNat = (fieldBits w).toNat := by
    simpa using Nat.and_two_pow_sub_one_eq_mod w.toNat 12
  rw [decodeFields, hcode, hfield]

/-- The range of R66. -/
theorem Fields.wf_iff {f : Fields} : f.wf = true ↔ f.code < 13 ∧ f.operand < 4096 := by
  rw [Fields.wf, Bool.and_eq_true, decide_eq_true_eq, decide_eq_true_eq, Config.numOpcodes]

theorem decodeFields_joinOpcode (c : BitVec 4) (x : Field) : decodeFields (joinOpcode c x) = ⟨c.toNat, x.toNat⟩ := by
  rw [decodeFields_eq_bits, opcodeBits_join, fieldBits_join]

/-- The mask of R65 cuts any integer to its low 12 bits. -/
theorem u16_and_mask (n : Int) : u16 n &&& 0x0FFF#16 = (BitVec.ofInt 12 n).setWidth 16 := by
  have hmask : (u16 n).toNat &&& 4095 = (u16 n).toNat % 4096 := Nat.and_two_pow_sub_one_eq_mod _ 12
  apply BitVec.eq_of_toNat_eq
  rw [BitVec.toNat_and, BitVec.toNat_ofNat, hmask, u16, BitVec.toNat_setWidth, BitVec.toNat_ofInt, BitVec.toNat_ofInt]
  omega

/-- Encoding a four-bit code and any integer: the code above the operand's low 12 bits. -/
theorem encodeWord_code (c : BitVec 4) (operand : Int) :
    encodeWord (some c.toNat) operand = joinOpcode c (BitVec.ofInt 12 operand) := by
  rw [encodeWord, joinOpcode, u16_and_mask, BitVec.ofNat_toNat]

/-- An operand that fits 12 bits is encoded whole. -/
theorem encodeWord_code_field (c : BitVec 4) (x : Field) : encodeWord (some c.toNat) x.toNat = joinOpcode c x := by
  rw [encodeWord_code, BitVec.ofInt_natCast, BitVec.ofNat_toNat, BitVec.setWidth_eq]

theorem encodeWord_code_toNat (c : BitVec 4) (operand : Int) :
    ((encodeWord (some c.toNat) operand).toNat : Int) = c.toNat * 4096 + operand % 4096 := by
  have hcut : ((BitVec.ofInt 12 operand).toNat : Int) = operand % 4096 := by
    rw [BitVec.toNat_ofInt]; omega
  rw [encodeWord_code, joinOpcode_toNat]
  omega

theorem encodeWord_none_toNat (literal : Int) : ((encodeWord none literal).toNat : Int) = literal % 65536 := by
  rw [encodeWord, u16, BitVec.toNat_ofInt]
  omega

/-! ### Decoding a word whose code is known (R62, R67) -/

theorem decode_of_opcodeBits {w : Word} {o : Opcode} (h : opcodeBits w = o.code) :
    decode w = .instr (Instr.ofFields o (fieldBits w)) := by
  rw [decode, h, Opcode.ofCode_code]

/-- `field[11:10]` is `w[11:10]` (R64). -/
theorem selBits_fieldBits_toNat (w : Word) : (selBits (fieldBits w)).toNat = w.toNat / 1024 % 4 := by
  rw [selBits_toNat, fieldBits_toNat]
  omega

end Sys2Proof

/-! ### The statements -/

namespace Sys2Proof.Proofs

/-- Settles O3: a pair in range is a four-bit code and a 12-bit field, and joining these is inverse to splitting a word. -/
theorem fieldPairsRoundTrip : Obligations.FieldPairsRoundTrip := by
  refine ⟨fun code operand hwf => ?_, fun w _ => ?_⟩
  · obtain ⟨hcode, hoperand⟩ : code < 13 ∧ operand < 4096 := Fields.wf_iff.mp hwf
    calc decodeFields (encodeWord (some code) operand)
      _ = decodeFields (joinOpcode (.ofNatLT code (by omega)) (.ofNatLT operand hoperand)) :=
        congrArg decodeFields (encodeWord_code_field (.ofNatLT code (by omega)) (.ofNatLT operand hoperand))
      _ = ⟨code, operand⟩ := decodeFields_joinOpcode ..
  · rw [decodeFields_eq_bits, encodeWord_code_field, join_bits]

/-- Settles O4: the document's pair and the decoder's bit fields are the quotient and the remainder by 4096. -/
theorem decodeSplitsTheWord : Obligations.DecodeSplitsTheWord := by
  intro w
  rw [decodeFields_eq_bits, zext16_toNat, opcodeBits_toNat, fieldBits_toNat]
  exact ⟨rfl, rfl, rfl, rfl⟩

/-- Settles O5: an operand is cut by the mask, a literal by the width of a word, and an instruction's field fits its 12 bits. -/
theorem encodeCutsTheOperand : Obligations.EncodeCutsTheOperand := by
  refine ⟨fun code operand hcode => ?_, encodeWord_none_toNat, fun i => ?_⟩
  · exact encodeWord_code_toNat (.ofNatLT code (by omega)) operand
  · exact encodeWord_code_field i.opcode.code i.field

/-- Settles O6: the decoder takes the selector from `field[11:10]`, which are bits 11 and 10 of the word. -/
theorem selectorIsBitsElevenAndTen : Obligations.SelectorIsBitsElevenAndTen := by
  intro w hcode
  have hskip : opcodeBits w = Opcode.skipCond.code := BitVec.eq_of_toNat_eq hcode
  refine ⟨_, _, decode_of_opcodeBits hskip, ?_⟩
  rw [SkipSel.bits_ofBits, selBits_fieldBits_toNat]

end Sys2Proof.Proofs
end

section
/-! PROOFS. The cycle (spec/40_cycle.md): what a step does from a core that stands at the start of one, by whether the fetch
can read the word at `PC`, with the state a successful fetch leaves written out. -/

namespace Sys2Proof.Machine

/-- At the start of a step the core fetches, and what the fetch leaves is decoded and executed (R90). -/
theorem step_of_fetching {s : State} (h : s.fetching) : step s = fetch s decodeAndExecute := by
  obtain ⟨hrun, hwait⟩ := h
  simp [step, hrun, hwait]

/-- Where `PC` names a word, its increment is plus one: the undefined value of R16 is not met. -/
theorem fetched_of_valid (w : Word) {s : State} (h : validAddress s.pc) :
    fetched w s = { s with mar := s.pc, mbr := w, ir := w, pc := s.pc + 1 } := by
  have hpc : s.pc.toNat < 65535 := Nat.lt_trans h (by decide)
  rw [fetched, pcSucc_of_lt hpc]

/-- A step whose fetch reads a word (R91). -/
theorem step_of_fetching_of_valid {s : State} (hs : s.fetching) (h : validAddress s.pc) :
    step s = decodeAndExecute { s with
      mar := s.pc, mbr := s.mem.get s.pc.toNat, ir := s.mem.get s.pc.toNat, pc := s.pc + 1 } := by
  rw [step_of_fetching hs, fetch_of_valid s _ h, fetched_of_valid _ h]

/-- A step whose fetch fails: only `MAR` and what the raise records are written (R91). -/
theorem step_of_fetching_of_invalid {s : State} (hs : s.fetching) (h : ¬validAddress s.pc) :
    step s = .next (raise (.memBounds s.pc .fetch) { s with mar := s.pc }) := by
  rw [step_of_fetching hs, fetch_of_invalid s _ h]

end Sys2Proof.Machine

/-! ### The statements -/

namespace Sys2Proof.Proofs

open Sys2Proof.Machine

/-- Settles O9: the two clauses are the two ways the read of the fetch can go. -/
theorem fetchReadsThenIncrements : Obligations.FetchReadsThenIncrements := by
  refine fun s hs => ⟨fun hout => ?_, fun hin => ?_⟩
  · exact step_of_fetching_of_invalid hs (Nat.not_lt.mpr hout)
  · exact step_of_fetching_of_valid hs hin

end Sys2Proof.Proofs
end

section
/-! PROOFS. Load and Store (spec/41_load_store.md): the word of an instruction as a number, when a field names a word of
memory, and the two ways a Store can go. -/

namespace Sys2Proof

/-- The word of any instruction (R62): its code times 4096, plus its field. -/
theorem encode_toNat (i : Instr) : (encode i).toNat = i.opcode.code.toNat * 4096 + i.field.toNat :=
  joinOpcode_toNat _ _

end Sys2Proof

namespace Sys2Proof.Machine

/-- A field names a word of memory exactly when it is below 512 (R43). -/
theorem validAddress_zext16 {x : Field} : validAddress (zext16 x) ↔ x.toNat < 512 := by
  rw [validAddress, zext16_toNat, Config.memWords]

/-- A Store whose field names a word puts `AC` there (R111). -/
theorem exec_store_of_valid {x : Field} (s : State) (h : validAddress (zext16 x)) :
    exec (.store x) s = .next { s with mar := zext16 x, mem := s.mem.set x.toNat s.ac } := by
  calc exec (.store x) s
    _ = memWrite (zext16 x) s.ac (latchField x s) .next := rfl
    _ = .next { latchField x s with mem := s.mem.set (zext16 x).toNat s.ac } := memWrite_of_valid _ _ _ h
    _ = .next { s with mar := zext16 x, mem := s.mem.set x.toNat s.ac } := by rw [zext16_toNat, latchField]

/-- A Store whose field names no word: `MAR` and what the raise records are all that is written (R111). -/
theorem exec_store_of_invalid {x : Field} (s : State) (h : ¬validAddress (zext16 x)) :
    exec (.store x) s = .next (raise (.memBounds (zext16 x) .write) (latchField x s)) :=
  memWrite_of_invalid s.ac (latchField x s) .next h

end Sys2Proof.Machine

/-! ### The statements -/

namespace Sys2Proof.Proofs

open Sys2Proof.Machine

/-- Settles O14: the two clauses are the two ways the write can go; the new memory is the old one with one word set. -/
theorem storeResult : Obligations.StoreResult := by
  refine fun x s => ⟨?_, fun hin => ?_, fun hout => ?_⟩
  · simp [encode_toNat, Instr.opcode, Opcode.code, Instr.field]
  · exact ⟨s.mem.set x.toNat s.ac, exec_store_of_valid s (validAddress_zext16.mpr hin),
      Memory.get_set_same _ _ _, fun _ hother => Memory.get_set_other _ _ hother⟩
  · exact exec_store_of_invalid s (mt validAddress_zext16.mp (Nat.not_lt.mpr hout))

end Sys2Proof.Proofs
end

section
/-! PROOFS. Arithmetic (spec/42_arithmetic.md): the machine's sum and difference as exact integer results cut to 16 bits, the
two ways the read of a direct operand can go once the decode has written `MAR`, and from these Add and Subtract; Clear has
no operand. -/

namespace Sys2Proof.Machine

/-! ### The sum and the difference (R121) -/

/-- `u16` gives back a pattern from its value (R7). -/
@[simp] theorem u16_toNat (v : Word) : u16 (v.toNat : Int) = v := by
  rw [u16, BitVec.ofInt_natCast, BitVec.ofNat_toNat, BitVec.setWidth_eq]

theorem u16_add (m n : Int) : u16 (m + n) = u16 m + u16 n := BitVec.ofInt_add m n

theorem u16_sub (m n : Int) : u16 (m - n) = u16 m - u16 n := by
  rw [u16, Int.sub_eq_add_neg, BitVec.ofInt_add, BitVec.ofInt_neg, ← BitVec.sub_eq_add_neg, u16, u16]

/-- The sum of two patterns is the exact sum of their values, cut to 16 bits. -/
theorem addWords_eq_u16 (v w : Word) : addWords v w = u16 ((v.toNat : Int) + (w.toNat : Int)) := by
  rw [addWords, u16_add, u16_toNat, u16_toNat]

/-- The difference of two patterns is the exact difference of their values, cut to 16 bits. -/
theorem subWords_eq_u16 (v w : Word) : subWords v w = u16 ((v.toNat : Int) - (w.toNat : Int)) := by
  rw [subWords, u16_sub, u16_toNat, u16_toNat]

/-! ### The direct operand after the decode (R92, R113) -/

/-- A field that names a word of memory: the operand is that word. -/
theorem directOperand_latchField_of_valid {x : Field} (s : State) (k : Word → Result) (h : validAddress (zext16 x)) :
    directOperand (latchField x s) k = k (s.mem.get x.toNat) := by
  rw [directOperand, directAddress, latchField_mar, memRead_of_valid _ _ _ h, latchField_mem, zext16_toNat]

/-- A field that names no word: the read faults, whatever was to be done with the operand. -/
theorem directOperand_latchField_of_invalid {x : Field} (s : State) (k : Word → Result)
    (h : ¬validAddress (zext16 x)) :
    directOperand (latchField x s) k = .next (raise (.memBounds (zext16 x) .read) (latchField x s)) :=
  memRead_of_invalid .read (latchField x s) k h

/-! ### What Add, Subtract and Clear do (R124, R125, R126) -/

theorem exec_add (x : Field) (s : State) :
    exec (.add x) s = directOperand (latchField x s) fun v => .next { latchField x s with ac := addWords s.ac v } := rfl

theorem exec_subtract (x : Field) (s : State) :
    exec (.subtract x) s = directOperand (latchField x s) fun v => .next { latchField x s with ac := subWords s.ac v } :=
  rfl

theorem exec_clear (ign : Field) (s : State) :
    exec (.clear ign) s = .next { s with mar := zext16 ign, ac := 0 } := rfl

end Sys2Proof.Machine

/-! ### The statements -/

namespace Sys2Proof.Proofs

open Sys2Proof.Machine

/-- Settles O15: the two clauses are the two ways the read of the operand can go, and the machine's sum is R124's. -/
theorem addResult : Obligations.AddResult := by
  refine fun x s => ⟨?_, fun hin => ?_, fun hout => ?_⟩
  · simp [encode_toNat, Instr.opcode, Opcode.code, Instr.field]
  · rw [exec_add, directOperand_latchField_of_valid s _ (validAddress_zext16.mpr hin), addWords_eq_u16, latchField]
  · exact directOperand_latchField_of_invalid s _ (mt validAddress_zext16.mp (Nat.not_lt.mpr hout))

/-- Settles O16: as for Add, with the word read as the subtrahend of the machine's difference. -/
theorem subtractResult : Obligations.SubtractResult := by
  refine fun x s => ⟨?_, fun hin => ?_, fun hout => ?_⟩
  · simp [encode_toNat, Instr.opcode, Opcode.code, Instr.field]
  · rw [exec_subtract, directOperand_latchField_of_valid s _ (validAddress_zext16.mpr hin), subWords_eq_u16, latchField]
  · exact directOperand_latchField_of_invalid s _ (mt validAddress_zext16.mp (Nat.not_lt.mpr hout))

/-- Settles O17: no access stands between the decode's write of `MAR` and the write of `AC`, so there is one case. -/
theorem clearResult : Obligations.ClearResult := by
  refine fun ign s => ⟨?_, exec_clear ign s⟩
  simp [encode_toNat, Instr.opcode, Opcode.code, Instr.field]

end Sys2Proof.Proofs
end

section
/-! PROOFS. Control (spec/43_control.md): what Jump does; its target is checked by the next fetch, not by the jump. -/

namespace Sys2Proof.Machine

/-- The target of a Jump is its field, which the decode has put in `MAR`; no access is made (R140). -/
theorem exec_jump (x : Field) (s : State) :
    exec (.jump x) s = .next { s with mar := zext16 x, pc := zext16 x } := rfl

end Sys2Proof.Machine

/-! ### The statements -/

namespace Sys2Proof.Proofs

open Sys2Proof.Machine

/-- Settles O19: the jump has one case for every field, and the next step is a fetch whose read fails, which it does
from any state with such a `PC`, however it got there. -/
theorem jumpResult : Obligations.JumpResult := by
  refine fun x s => ⟨?_, exec_jump x s, fun t _ hfetching hout => ?_⟩
  · simp [encode_toNat, Instr.opcode, Opcode.code, Instr.field]
  · exact step_of_fetching_of_invalid hfetching (Nat.not_lt.mpr hout)

end Sys2Proof.Proofs
end

section
/-! PROOFS. Input, output and Halt (spec/44_io_halt.md): what Output does; it makes no access and cannot fault. -/

namespace Sys2Proof.Machine

/-- The value emitted is the one just copied from `AC` to `OutREG`, so both are `AC` as it was before (R163, R165). -/
theorem exec_output (ign : Field) (s : State) :
    exec (.output ign) s = .next { s with
      mar := zext16 ign, outReg := s.ac, outTrace := s.outTrace ++ [s.ac] } := rfl

end Sys2Proof.Machine

/-! ### The statements -/

namespace Sys2Proof.Proofs

open Sys2Proof.Machine

/-- Settles O25: there is one case, for Output neither reads memory nor waits for the port. -/
theorem outputResult : Obligations.OutputResult := by
  refine fun ign s => ⟨?_, exec_output ign s⟩
  simp [encode_toNat, Instr.opcode, Opcode.code, Instr.field]

end Sys2Proof.Proofs
end

section
/-! PROOFS. The decoder and the encoder as inverses (spec/30_encoding.md): an instruction is its opcode and its field, a word
is its code and its field, and the table of opcodes joins the two. -/

namespace Sys2Proof

/-! ### An instruction as its opcode and its field (R62) -/

@[simp] theorem Instr.opcode_ofFields (o : Opcode) (x : Field) : (Instr.ofFields o x).opcode = o := by cases o <;> rfl

@[simp] theorem Instr.field_ofFields (o : Opcode) (x : Field) : (Instr.ofFields o x).field = x := by
  cases o
  case skipCond =>
    calc joinSelector (SkipSel.ofBits (selBits x)).bits (ignoredBits x)
      _ = joinSelector (selBits x) (ignoredBits x) := by rw [SkipSel.bits_ofBits]
      _ = x := joinSelector_bits x
  all_goals rfl

@[simp] theorem Instr.ofFields_opcode_field (i : Instr) : Instr.ofFields i.opcode i.field = i := by
  cases i
  case skipCond sel ign =>
    simp [Instr.ofFields, Instr.opcode, Instr.field, selBits_join, ignoredBits_join, SkipSel.ofBits_bits]
  all_goals rfl

/-! ### Decode and encode (R66, R67, R68) -/

theorem encode_ofFields (o : Opcode) (x : Field) : encode (Instr.ofFields o x) = joinOpcode o.code x := by
  rw [encode, Instr.opcode_ofFields, Instr.field_ofFields]

theorem decode_encode (i : Instr) : decode (encode i) = .instr i := by
  rw [decode_of_opcodeBits (opcodeBits_encode i), fieldBits_encode, Instr.ofFields_opcode_field]

/-- What the decoder can answer: the instruction of a defined code, or no opcode where the code is 13 or more. -/
theorem decode_cases (w : Word) :
    (∃ i, w = encode i ∧ decode w = .instr i) ∨
      (13 ≤ (opcodeBits w).toNat ∧ decode w = .undefinedOpcode (opcodeBits w)) := by
  cases h : Opcode.ofCode (opcodeBits w) with
  | some o =>
    have hcode : opcodeBits w = o.code := (Opcode.ofCode_eq_some _ _).mp h
    refine .inl ⟨Instr.ofFields o (fieldBits w), ?_, decode_of_opcodeBits hcode⟩
    rw [encode_ofFields, ← hcode, join_bits]
  | none => exact .inr ⟨(Opcode.ofCode_eq_none _).mp h, by rw [decode, h]⟩

theorem decode_eq_instr {w : Word} {i : Instr} : decode w = .instr i ↔ encode i = w := by
  refine ⟨fun h => ?_, fun h => h ▸ decode_encode i⟩
  obtain ⟨j, hw, hj⟩ | ⟨-, hnone⟩ := decode_cases w
  · rw [hw, Decoded.instr.inj (hj.symm.trans h)]
  · rw [hnone] at h
    cases h

theorem Opcode.code_lt (o : Opcode) : o.code.toNat < 13 := by cases o <;> decide

theorem decode_eq_undefinedOpcode {w : Word} :
    decode w = .undefinedOpcode (opcodeBits w) ↔ 13 ≤ (opcodeBits w).toNat := by
  obtain ⟨i, rfl, hi⟩ | ⟨hcode, hnone⟩ := decode_cases w
  · have := i.opcode.code_lt
    rw [hi, opcodeBits_encode]
    exact iff_of_false nofun (by omega)
  · exact iff_of_true hnone hcode

/-- The opcode of what a word decodes to is the one bound to its top four bits. -/
theorem exists_decode_opcode {w : Word} {o : Opcode} :
    (∃ i, decode w = .instr i ∧ i.opcode = o) ↔ opcodeBits w = o.code := by
  constructor
  · rintro ⟨i, hi, rfl⟩
    rw [← decode_eq_instr.mp hi, opcodeBits_encode]
  · exact fun h => ⟨_, decode_of_opcodeBits h, Instr.opcode_ofFields _ _⟩

/-! ### The opcode map (R67) -/

/-- Every row asks for the top four bits to be the code of its opcode. -/
theorem opcodeTable_row : ∀ r ∈ opcodeTable, r.mask = 0xF000#16 ∧ r.pattern = joinOpcode r.opcode.code 0 := by decide

theorem joinOpcode_and (c d : BitVec 4) (x y : Field) :
    joinOpcode c x &&& joinOpcode d y = joinOpcode (c &&& d) (x &&& y) := by
  unfold joinOpcode
  ext k hk
  by_cases h : k < 12
  · simp [h]
  · simp [h, BitVec.getLsbD_of_ge _ k (Nat.le_of_not_lt h)]

/-- The mask of R67 keeps the code and clears the field. -/
theorem and_topMask (w : Word) : w &&& 0xF000#16 = joinOpcode (opcodeBits w) 0 := by
  calc w &&& 0xF000#16
    _ = joinOpcode (opcodeBits w) (fieldBits w) &&& joinOpcode (.allOnes 4) 0 := by rw [join_bits]; rfl
    _ = joinOpcode (opcodeBits w) 0 := by rw [joinOpcode_and, BitVec.and_allOnes, BitVec.ofNat_eq_ofNat, BitVec.and_zero]

theorem row_matches {w : Word} {r : OpcodeRow} (h : r ∈ opcodeTable) :
    w &&& r.mask = r.pattern ↔ opcodeBits w = r.opcode.code := by
  obtain ⟨hmask, hpattern⟩ := opcodeTable_row r h
  rw [hmask, hpattern, and_topMask]
  refine ⟨fun e => ?_, fun e => e ▸ rfl⟩
  rw [← opcodeBits_join (opcodeBits w) 0, e, opcodeBits_join]

end Sys2Proof

/-! ### The statements -/

namespace Sys2Proof.Proofs

/-- Settles O2: an instruction is its opcode and field, a word its code and field, and the two are joined the same way. -/
theorem decodeAndEncodeAgree : Obligations.DecodeAndEncodeAgree := fun _ _ => decode_eq_instr

/-- Settles O7: the mask keeps the top four bits, and these name a row or are 13 or more. -/
theorem opcodeMapDecides : Obligations.OpcodeMapDecides := by
  refine ⟨fun w r hr => (row_matches hr).trans exists_decode_opcode.symm, fun w => ?_⟩
  rw [decode_eq_undefinedOpcode, opcodeBits_toNat]
  omega

/-- Settles O1: each word is the encoding of its instruction, and the last has an undefined code. -/
theorem specWordsDecode : Obligations.SpecWordsDecode := by
  exact ⟨decode_encode (.jumpAndStore 7), decode_encode (.load 100), decode_encode (.halt 0xABC),
    decode_encode (.skipCond .eqZero 0x3FF), decode_encode (.skipCond .never 0), decode_encode (.jumpIndirect 511),
    decode_eq_undefinedOpcode.mpr (by decide)⟩

end Sys2Proof.Proofs
end

section
/-! PROOFS. The instructions as state updates (spec/41_load_store.md to spec/44_io_halt.md): for every instruction the first
access that fails, if one does, and the state it leaves when none does. `exec` answers the one or the other. -/

namespace Sys2Proof.Machine

/-! ### The first access that fails (R43, R182) -/

/-- The fault of an access to `a`, where it has one. -/
def boundsFault (kind : FaultKind) (a : Word) : Option Raise :=
  if validAddress a then none else some (.memBounds a kind)

theorem boundsFault_eq_none {kind : FaultKind} {a : Word} : boundsFault kind a = none ↔ validAddress a := by
  simp [boundsFault]

theorem boundsFault_eq_some {kind : FaultKind} {a : Word} {r : Raise} :
    boundsFault kind a = some r ↔ ¬validAddress a ∧ r = .memBounds a kind := by
  simp [boundsFault, eq_comm]

theorem boundsFault_zext16_of_lt (kind : FaultKind) {x : Field} (h : x.toNat < 512) :
    boundsFault kind (zext16 x) = none := boundsFault_eq_none.mpr (validAddress_zext16.mpr h)

theorem boundsFault_zext16_of_le (kind : FaultKind) {x : Field} (h : 512 ≤ x.toNat) :
    boundsFault kind (zext16 x) = some (.memBounds (zext16 x) kind) :=
  boundsFault_eq_some.mpr ⟨mt validAddress_zext16.mp (Nat.not_lt.mpr h), rfl⟩

/-- The fault of the first access of an instruction that has one (the spec's table of accesses in R47). -/
def accessFault (i : Instr) (s : State) : Option Raise :=
  match i with
  | .load x => boundsFault .read (zext16 x)
  | .add x => boundsFault .read (zext16 x)
  | .subtract x => boundsFault .read (zext16 x)
  | .jumpIndirect x => boundsFault .read (zext16 x)
  | .addIndirect x => (boundsFault .read (zext16 x)).or (boundsFault .read (s.mem.get x.toNat))
  | .store x => boundsFault .write (zext16 x)
  | .jumpAndStore x => boundsFault .write (zext16 x)
  | .input _ => none
  | .output _ => none
  | .halt _ => none
  | .skipCond _ _ => none
  | .jump _ => none
  | .clear _ => none

/-- Where an AddIndirect faults, and where it does not. -/
theorem accessFault_addIndirect_eq_none {x : Field} {s : State} :
    accessFault (.addIndirect x) s = none ↔ validAddress (zext16 x) ∧ validAddress (s.mem.get x.toNat) := by
  simp only [accessFault, Option.or_eq_none_iff, boundsFault_eq_none]

theorem accessFault_addIndirect_eq_some {x : Field} {s : State} {r : Raise} :
    accessFault (.addIndirect x) s = some r ↔
      (¬validAddress (zext16 x) ∧ r = .memBounds (zext16 x) .read) ∨
        (validAddress (zext16 x) ∧ ¬validAddress (s.mem.get x.toNat) ∧
          r = .memBounds (s.mem.get x.toNat) .read) := by
  simp only [accessFault, Option.or_eq_some_iff, boundsFault_eq_some, boundsFault_eq_none]

/-! ### The state an instruction leaves when it completes -/

/-- The state after a request of the input port (R160, R162): the next value is taken, or with none the core waits. -/
def afterInput (s : State) : State :=
  { s with
    inReg := s.inStream.head?.getD s.inReg
    ac := s.inStream.head?.getD s.ac
    inStream := s.inStream.tail
    inputWait := s.inStream.isEmpty }

theorem takeInput_eq (s : State) : takeInput s = .next (afterInput s) := by
  obtain ⟨hnil, h⟩ | ⟨v, rest, hcons, h⟩ := takeInput_cases s
  · simp [h, afterInput, hnil]
  · simp [h, afterInput, hcons]

/-- What an instruction none of whose accesses fails leaves, from the state the fetch left. -/
def completed (i : Instr) (s : State) : State :=
  match i with
  | .load x => { s with mar := zext16 x, ac := s.mem.get x.toNat }
  | .store x => { s with mar := zext16 x, mem := s.mem.set x.toNat s.ac }
  | .add x => { s with mar := zext16 x, ac := addWords s.ac (s.mem.get x.toNat) }
  | .subtract x => { s with mar := zext16 x, ac := subWords s.ac (s.mem.get x.toNat) }
  | .clear ign => { s with mar := zext16 ign, ac := 0 }
  | .addIndirect x =>
    { s with mar := zext16 x, ac := addWords s.ac (s.mem.get (s.mem.get x.toNat).toNat) }
  | .jump x => { s with mar := zext16 x, pc := zext16 x }
  | .jumpIndirect x => { s with mar := zext16 x, pc := s.mem.get x.toNat }
  | .jumpAndStore x => { s with mar := zext16 x, mem := s.mem.set x.toNat s.pc, pc := zext16 x + 1 }
  | .skipCond sel ign =>
    { s with
      mar := zext16 (joinSelector sel.bits ign)
      pc := if skipTaken sel s.ac then pcSucc s.pc else s.pc }
  | .input ign => afterInput (latchField ign s)
  | .output ign => { s with mar := zext16 ign, outReg := s.ac, outTrace := s.outTrace ++ [s.ac] }
  | .halt ign => { s with mar := zext16 ign, run := .halted }

/-! ### What `exec` answers -/

/-- The target of a JumpAndStore is an increment that the spec defines (R146). -/
theorem pcSucc_zext16 (x : Field) : pcSucc (zext16 x) = zext16 x + 1 := by
  have hx : x.toNat < 4096 := x.isLt
  exact pcSucc_of_lt (by rw [zext16_toNat]; omega)

theorem exec_jumpAndStore (x : Field) (s : State) :
    exec (.jumpAndStore x) s =
      memWrite (zext16 x) s.pc (latchField x s) fun u => .next { u with pc := pcSucc u.mar } := rfl

theorem exec_jumpAndStore_of_valid {x : Field} (s : State) (h : validAddress (zext16 x)) :
    exec (.jumpAndStore x) s = .next (completed (.jumpAndStore x) s) := by
  calc exec (.jumpAndStore x) s
    _ = memWrite (zext16 x) s.pc (latchField x s) fun u => .next { u with pc := pcSucc u.mar } :=
      exec_jumpAndStore x s
    _ = .next { latchField x s with mem := s.mem.set (zext16 x).toNat s.pc, pc := pcSucc (zext16 x) } :=
      memWrite_of_valid _ _ _ h
    _ = .next (completed (.jumpAndStore x) s) := by rw [zext16_toNat, pcSucc_zext16]; rfl

theorem exec_skipCond (sel : SkipSel) (ign : BitVec 10) (s : State) :
    exec (.skipCond sel ign) s = .next (completed (.skipCond sel ign) s) := by
  calc exec (.skipCond sel ign) s
    _ = .next (if skipTaken sel s.ac
          then { latchField (joinSelector sel.bits ign) s with pc := pcSucc s.pc }
          else latchField (joinSelector sel.bits ign) s) := rfl
    _ = .next (completed (.skipCond sel ign) s) := by
      cases h : skipTaken sel s.ac <;> simp [completed, latchField, h]

theorem exec_addIndirect_of_valid {x : Field} {s : State} (hx : validAddress (zext16 x))
    (hp : validAddress (s.mem.get x.toNat)) :
    exec (.addIndirect x) s = .next (completed (.addIndirect x) s) := by
  calc exec (.addIndirect x) s
    _ = directOperand (latchField x s) fun p => memRead .read p (latchField x s) fun v =>
          .next { latchField x s with ac := addWords s.ac v } := rfl
    _ = .next (completed (.addIndirect x) s) := by
      rw [directOperand_latchField_of_valid s _ hx, memRead_of_valid _ _ _ hp]; rfl

theorem exec_of_completes {i : Instr} {s : State} (h : accessFault i s = none) :
    exec i s = .next (completed i s) := by
  cases i with
  | load x => exact directOperand_latchField_of_valid s _ (boundsFault_eq_none.mp h)
  | add x => exact directOperand_latchField_of_valid s _ (boundsFault_eq_none.mp h)
  | subtract x => exact directOperand_latchField_of_valid s _ (boundsFault_eq_none.mp h)
  | jumpIndirect x => exact directOperand_latchField_of_valid s _ (boundsFault_eq_none.mp h)
  | addIndirect x =>
    obtain ⟨hx, hp⟩ := accessFault_addIndirect_eq_none.mp h
    exact exec_addIndirect_of_valid hx hp
  | store x => exact exec_store_of_valid s (boundsFault_eq_none.mp h)
  | jumpAndStore x => exact exec_jumpAndStore_of_valid s (boundsFault_eq_none.mp h)
  | skipCond sel ign => exact exec_skipCond sel ign s
  | input ign => exact takeInput_eq (latchField ign s)
  | output ign => rfl
  | halt ign => rfl
  | jump x => rfl
  | clear ign => rfl

theorem exec_of_accessFault {i : Instr} {s : State} {r : Raise} (h : accessFault i s = some r) :
    exec i s = .next (raise r (latchField i.field s)) := by
  have hread {x : Field} {k : Word → Result} (hx : boundsFault .read (zext16 x) = some r) :
      directOperand (latchField x s) k = .next (raise r (latchField x s)) := by
    obtain ⟨hout, rfl⟩ := boundsFault_eq_some.mp hx
    exact directOperand_latchField_of_invalid s k hout
  have hwrite {x : Field} {v : Word} {k : State → Result} (hx : boundsFault .write (zext16 x) = some r) :
      memWrite (zext16 x) v (latchField x s) k = .next (raise r (latchField x s)) := by
    obtain ⟨hout, rfl⟩ := boundsFault_eq_some.mp hx
    exact memWrite_of_invalid v (latchField x s) k hout
  cases i with
  | load x => exact hread h
  | add x => exact hread h
  | subtract x => exact hread h
  | jumpIndirect x => exact hread h
  | addIndirect x =>
    obtain ⟨hout, rfl⟩ | ⟨hin, hout, rfl⟩ := accessFault_addIndirect_eq_some.mp h
    · exact directOperand_latchField_of_invalid s _ hout
    · exact (directOperand_latchField_of_valid s _ hin).trans (memRead_of_invalid .read (latchField x s) _ hout)
  | store x => exact hwrite h
  | jumpAndStore x => exact (exec_jumpAndStore x s).trans (hwrite h)
  | input _ | output _ | halt _ | skipCond _ _ | jump _ | clear _ => cases h

/-- A field that names a word is all that an instruction needs to complete, AddIndirect excepted. -/
theorem exec_of_field_in_range {i : Instr} (s : State) (hop : i.opcode ≠ .addIndirect) (h : i.field.toNat < 512) :
    exec i s = .next (completed i s) := by
  refine exec_of_completes ?_
  cases i
  case addIndirect => exact absurd rfl hop
  case load | add | subtract | jumpIndirect => exact boundsFault_zext16_of_lt .read h
  case store | jumpAndStore => exact boundsFault_zext16_of_lt .write h
  all_goals rfl

/-- The six instructions that make no access do not fault. -/
theorem opcode_not_mem_of_accessFault {i : Instr} {s : State} {r : Raise} (h : accessFault i s = some r) :
    i.opcode ∉ [.input, .output, .halt, .skipCond, .jump, .clear] := by
  cases i
  case input | output | halt | skipCond | jump | clear => cases h
  all_goals simp [Instr.opcode]

/-- Everything an instruction can do. -/
theorem exec_cases (i : Instr) (s : State) :
    (accessFault i s = none ∧ exec i s = .next (completed i s)) ∨
      ∃ r, accessFault i s = some r ∧ exec i s = .next (raise r (latchField i.field s)) := by
  cases h : accessFault i s with
  | none => exact .inl ⟨rfl, exec_of_completes h⟩
  | some r => exact .inr ⟨r, rfl, exec_of_accessFault h⟩

/-- The same, of the state answered. -/
theorem eq_of_exec {i : Instr} {s t : State} (h : exec i s = .next t) :
    (accessFault i s = none ∧ t = completed i s) ∨
      ∃ r, accessFault i s = some r ∧ t = raise r (latchField i.field s) := by
  obtain ⟨hf, he⟩ | ⟨r, hf, he⟩ := exec_cases i s
  · exact .inl ⟨hf, (Host.Outcome.next.inj (he.symm.trans h)).symm⟩
  · exact .inr ⟨r, hf, (Host.Outcome.next.inj (he.symm.trans h)).symm⟩

end Sys2Proof.Machine
end

section
/-! PROOFS. The results of the other instructions (spec/41_load_store.md to spec/44_io_halt.md): each clause of a statement
is one of the two answers of `exec`, a completed instruction or the fault of its first failing access. -/

namespace Sys2Proof

/-- A selector above the ignored bits: the two do not overlap, so joining them adds (R62, format S). -/
@[simp] theorem joinSelector_toNat (b : BitVec 2) (r : BitVec 10) :
    (joinSelector b r).toNat = b.toNat * 1024 + r.toNat := by
  have hsel := selBits_toNat (joinSelector b r)
  have hign : (ignoredBits (joinSelector b r)).toNat = (joinSelector b r).toNat % 1024 := by simp [ignoredBits]
  rw [selBits_join] at hsel
  rw [ignoredBits_join] at hign
  omega

end Sys2Proof

namespace Sys2Proof.Machine

theorem s16_neg_iff {w : Word} : s16 w < 0 ↔ 0x8000 ≤ w.toNat := by
  have hw : w.toNat < 65536 := w.isLt
  unfold s16
  split <;> omega

theorem s16_pos_iff {w : Word} : 0 < s16 w ↔ 1 ≤ w.toNat ∧ w.toNat ≤ 0x7FFF := by
  have hw : w.toNat < 65536 := w.isLt
  unfold s16
  split <;> omega

/-- The signed conditions of R150 as ranges of the pattern in `AC`. -/
theorem skipTaken_iff {sel : SkipSel} {ac : Word} :
    skipTaken sel ac = true ↔
      (sel = .ltZero ∧ 0x8000 ≤ ac.toNat) ∨ (sel = .eqZero ∧ ac.toNat = 0) ∨
        (sel = .gtZero ∧ 1 ≤ ac.toNat ∧ ac.toNat ≤ 0x7FFF) := by
  cases sel with
  | ltZero => simp [skipTaken, s16_neg_iff]
  | eqZero => simp [skipTaken, ← BitVec.toNat_inj]
  | gtZero => simp [skipTaken, s16_pos_iff]
  | never => simp [skipTaken]

/-- A SkipCond whose condition holds increments `PC`; another leaves it (R150). -/
theorem exec_skipCond_taken {sel : SkipSel} (ign : BitVec 10) {s : State} (h : skipTaken sel s.ac = true) :
    exec (.skipCond sel ign) s = .next { s with
      mar := zext16 (Instr.skipCond sel ign).field, pc := pcSucc s.pc } := by
  rw [exec_skipCond, completed, if_pos h, Instr.field]

theorem exec_skipCond_not_taken {sel : SkipSel} (ign : BitVec 10) {s : State} (h : ¬skipTaken sel s.ac = true) :
    exec (.skipCond sel ign) s = .next { s with mar := zext16 (Instr.skipCond sel ign).field } := by
  rw [exec_skipCond, completed, if_neg h, Instr.field]

theorem afterInput_of_nil {s : State} (h : s.inStream = []) : afterInput s = { s with inputWait := true } := by
  simp [afterInput, h]

theorem afterInput_of_cons {s : State} {v : Word} {rest : List Word} (h : s.inStream = v :: rest) :
    afterInput s = { s with inReg := v, ac := v, inStream := rest, inputWait := false } := by
  simp [afterInput, h]

theorem exec_input (ign : Field) (s : State) : exec (.input ign) s = .next (afterInput (latchField ign s)) :=
  exec_of_completes rfl

theorem exec_halt (ign : Field) (s : State) :
    exec (.halt ign) s = .next { s with mar := zext16 ign, run := .halted } := exec_of_completes rfl

/-- In a terminal state a step answers that state (R23). -/
theorem step_of_ended {s : State} (h : s.ended) : step s = .next s := by
  obtain h | h := h <;> simp [step, h, terminalStep]

/-- A core that waits inside an Input requests the port again (R162). -/
theorem step_of_waiting {s : State} (hrun : s.run = .running) (hwait : s.inputWait = true) :
    step s = .next (afterInput s) := by
  rw [← takeInput_eq]
  simp [step, hrun, hwait, resumeInput]

/-- A fetch outside memory faults, with its state written out (R91): how a target that names no word is found (R155). -/
theorem step_of_pc_outside {t : State} (ht : t.fetching) (hout : 512 ≤ t.pc.toNat) :
    step t = .next { t with
      mar := t.pc, run := .faulted, faultCause := .memBounds, faultInfo := t.pc, faultKind := .fetch } :=
  step_of_fetching_of_invalid ht (Nat.not_lt.mpr hout)

end Sys2Proof.Machine

/-! ### The statements -/

namespace Sys2Proof.Proofs

open Sys2Proof.Machine

/-- Settles O13: the read of the direct operand is Load's one access. -/
theorem loadResult : Obligations.LoadResult := by
  refine fun x s => ⟨?_, fun hin => ?_, fun hout => ?_⟩
  · simp [encode_toNat, Instr.opcode, Opcode.code, Instr.field]
  · exact exec_of_field_in_range (i := .load x) s nofun hin
  · exact exec_of_accessFault (i := .load x) (boundsFault_zext16_of_le .read hout)

/-- Settles O18: the first access that fails is at the field or, the field naming a word, at the pointer. -/
theorem addIndirectResult : Obligations.AddIndirectResult := by
  refine fun x s => ⟨?_, fun hin hp => ?_, fun hin hp => ?_, fun hout => ?_⟩
  · simp [encode_toNat, Instr.opcode, Opcode.code, Instr.field]
  · rw [← addWords_eq_u16]
    exact exec_addIndirect_of_valid (validAddress_zext16.mpr hin) hp
  · exact exec_of_accessFault (i := .addIndirect x) <| accessFault_addIndirect_eq_some.mpr <|
      .inr ⟨validAddress_zext16.mpr hin, Nat.not_lt.mpr hp, rfl⟩
  · exact exec_of_accessFault (i := .addIndirect x) <| accessFault_addIndirect_eq_some.mpr <|
      .inl ⟨mt validAddress_zext16.mp (Nat.not_lt.mpr hout), rfl⟩

/-- Settles O20: as for Load, with the word going to `PC`, where only the next fetch checks it. -/
theorem jumpIndirectResult : Obligations.JumpIndirectResult := by
  refine fun x s => ⟨?_, fun hin => ?_, fun hout => ?_, fun t _ ht hout => step_of_pc_outside ht hout⟩
  · simp [encode_toNat, Instr.opcode, Opcode.code, Instr.field]
  · exact exec_of_field_in_range (i := .jumpIndirect x) s nofun hin
  · exact exec_of_accessFault (i := .jumpIndirect x) (boundsFault_zext16_of_le .read hout)

/-- Settles O21: `PC` is written after the write of memory, so a fault leaves both. -/
theorem jumpAndStoreResult : Obligations.JumpAndStoreResult := by
  refine fun x s => ⟨?_, fun hin => ?_, fun hout => ?_, fun t _ ht hout => step_of_pc_outside ht hout⟩
  · simp [encode_toNat, Instr.opcode, Opcode.code, Instr.field]
  · exact ⟨s.mem.set x.toNat s.pc, exec_jumpAndStore_of_valid s (validAddress_zext16.mpr hin),
      Memory.get_set_same _ _ _, fun _ hother => Memory.get_set_other _ _ hother⟩
  · exact exec_of_accessFault (i := .jumpAndStore x) (boundsFault_zext16_of_le .write hout)

/-- Settles O22: the three taken cases are the signed conditions of the three selectors. -/
theorem skipCondResult : Obligations.SkipCondResult := by
  refine fun sel ign s => ⟨?_, pcSucc s.pc, pcSucc_of_ne, fun htaken => ?_, fun hnot => ?_⟩
  · have hcode : (Instr.skipCond sel ign).opcode.code.toNat = 8 := rfl
    rw [encode_toNat, hcode, Instr.field, joinSelector_toNat]
    omega
  · exact exec_skipCond_taken ign (skipTaken_iff.mpr htaken)
  · exact exec_skipCond_not_taken ign (mt skipTaken_iff.mp hnot)

/-- Settles O23: the request of the port finds a value. -/
theorem inputResult : Obligations.InputResult := by
  refine fun ign s v rest hin => ⟨?_, ?_⟩
  · simp [encode_toNat, Instr.opcode, Opcode.code, Instr.field]
  · rw [exec_input, afterInput_of_cons (s := latchField ign s) hin, latchField]

/-- Settles O24: the same request of the port is made by the Input and by each step of the core that waits. -/
theorem inputWaits : Obligations.InputWaits := by
  refine ⟨fun ign s hnil => ?_, fun s hrun hwait hnil => ?_, fun s v rest hrun hwait hcons => ?_⟩
  · rw [exec_input, afterInput_of_nil (s := latchField ign s) hnil, latchField]
  · rw [step_of_waiting hrun hwait, afterInput_of_nil hnil, ← hwait]
  · rw [step_of_waiting hrun hwait, afterInput_of_cons hcons]

/-- Settles O26: Halt has one case, and the state it leaves has ended. -/
theorem haltResult : Obligations.HaltResult := by
  refine fun ign s => ⟨?_, exec_halt ign s, fun t ht => ?_⟩
  · simp [encode_toNat, Instr.opcode, Opcode.code, Instr.field]
  · rw [exec_halt] at ht
    exact step_of_ended (.inl (Host.Outcome.next.inj ht ▸ rfl))

/-- Settles O11: a run repeats the one step that answers the same state. -/
theorem terminalStatesStay : Obligations.TerminalStatesStay := by
  intro s k hended
  induction k with
  | zero => rfl
  | succ k ih => rw [core_run_of_next k (step_of_ended hended), ih]

/-- Settles O12: an instruction completes or raises a fault, and both are states; so are the other four ways of a step. -/
theorem everyStepAnswersAState : Obligations.EveryStepAnswersAState := by
  have hexec (i : Instr) (s : State) : ∃ t, exec i s = .next t := by
    obtain ⟨-, h⟩ | ⟨r, -, h⟩ := exec_cases i s
    · exact ⟨_, h⟩
    · exact ⟨_, h⟩
  refine ⟨fun s => ?_, hexec⟩
  obtain ⟨-, h⟩ | ⟨-, -, h⟩ | ⟨-, -, -, h⟩ | ⟨-, -, -, c, -, h⟩ | ⟨-, -, -, i, -, h⟩ := step_cases s
  · exact ⟨_, h⟩
  · exact ⟨_, h.trans (takeInput_eq s)⟩
  · exact ⟨_, h⟩
  · exact ⟨_, h⟩
  · rw [h]
    exact hexec i _

end Sys2Proof.Proofs
end

section
/-! PROOFS. Frames (spec/10_state.md, spec/20_memory.md): what a completed instruction leaves of each field, read off
`completed` once per field, and from these what `exec` leaves; then the same for two runs from different memories. -/

namespace Sys2Proof.Machine

/-! ### The fields of the state a completed instruction leaves -/

@[simp] theorem completed_mar (i : Instr) (s : State) : (completed i s).mar = zext16 i.field := by cases i <;> rfl
@[simp] theorem completed_mbr (i : Instr) (s : State) : (completed i s).mbr = s.mbr := by cases i <;> rfl
@[simp] theorem completed_ir (i : Instr) (s : State) : (completed i s).ir = s.ir := by cases i <;> rfl

@[simp] theorem completed_faultCause (i : Instr) (s : State) : (completed i s).faultCause = s.faultCause := by
  cases i <;> rfl

@[simp] theorem completed_faultInfo (i : Instr) (s : State) : (completed i s).faultInfo = s.faultInfo := by
  cases i <;> rfl

@[simp] theorem completed_faultKind (i : Instr) (s : State) : (completed i s).faultKind = s.faultKind := by
  cases i <;> rfl

/-- Only Halt writes `RUN` (R166). -/
theorem completed_run (i : Instr) (s : State) :
    (completed i s).run = if i.opcode = .halt then .halted else s.run := by cases i <;> rfl

/-- Only Input touches `IN`, `InREG` and the wait (R160, R162). -/
theorem completed_inStream (i : Instr) (s : State) :
    (completed i s).inStream = if i.opcode = .input then s.inStream.tail else s.inStream := by cases i <;> rfl

theorem completed_inReg (i : Instr) (s : State) :
    (completed i s).inReg = if i.opcode = .input then s.inStream.head?.getD s.inReg else s.inReg := by cases i <;> rfl

theorem completed_inputWait (i : Instr) (s : State) :
    (completed i s).inputWait = if i.opcode = .input then s.inStream.isEmpty else s.inputWait := by cases i <;> rfl

/-- Only Output touches `OUT` and `OutREG` (R163). -/
theorem completed_outReg (i : Instr) (s : State) :
    (completed i s).outReg = if i.opcode = .output then s.ac else s.outReg := by cases i <;> rfl

theorem completed_outTrace (i : Instr) (s : State) :
    (completed i s).outTrace = if i.opcode = .output then s.outTrace ++ [s.ac] else s.outTrace := by cases i <;> rfl

/-- The writers of `AC` (R20). -/
theorem completed_ac {i : Instr} (s : State)
    (h : i.opcode ∉ [.load, .add, .subtract, .clear, .addIndirect, .input]) : (completed i s).ac = s.ac := by
  cases i
  case load | add | subtract | clear | addIndirect | input => simp [Instr.opcode] at h
  all_goals rfl

/-- The writers of `PC` (R16). -/
theorem completed_pc {i : Instr} (s : State) (h : i.opcode ∉ [.jump, .jumpIndirect, .jumpAndStore, .skipCond]) :
    (completed i s).pc = s.pc := by
  cases i
  case jump | jumpIndirect | jumpAndStore | skipCond => simp [Instr.opcode] at h
  all_goals rfl

/-- The writers of memory (R47). -/
theorem completed_mem {i : Instr} (s : State) (h : i.opcode ≠ .store) (h' : i.opcode ≠ .jumpAndStore) :
    (completed i s).mem = s.mem := by
  cases i
  case store => exact absurd rfl h
  case jumpAndStore => exact absurd rfl h'
  all_goals rfl

/-- No instruction writes a word of memory but the one its field names. -/
theorem completed_mem_get {i : Instr} (s : State) {a : Nat} (h : a ≠ i.field.toNat) :
    (completed i s).mem.get a = s.mem.get a := by
  cases i
  case store x => exact Memory.get_set_other _ _ h
  case jumpAndStore x => exact Memory.get_set_other _ _ h
  all_goals rfl

/-! ### What `exec` leaves of memory -/

theorem exec_mem {i : Instr} {s t : State} (h : i.opcode ≠ .store) (h' : i.opcode ≠ .jumpAndStore)
    (ht : exec i s = .next t) : t.mem = s.mem := by
  obtain ⟨-, rfl⟩ | ⟨r, -, rfl⟩ := eq_of_exec ht
  · exact completed_mem s h h'
  · rfl

theorem exec_mem_get {i : Instr} {s t : State} {a : Nat} (h : a ≠ i.field.toNat) (ht : exec i s = .next t) :
    t.mem.get a = s.mem.get a := by
  obtain ⟨-, rfl⟩ | ⟨r, -, rfl⟩ := eq_of_exec ht
  · exact completed_mem_get s h
  · rfl

/-! ### Two runs from states that differ in memory only (R47) -/

section TwoRuns

variable {i : Instr} {s : State} {m : Memory}

theorem accessFault_of_same_reads (h : ∀ a ∈ dataReads i s, m.get a = s.mem.get a) :
    accessFault i { s with mem := m } = accessFault i s := by
  cases i
  case addIndirect x => simp [accessFault, h x.toNat (by simp [dataReads])]
  all_goals rfl

/-- Alike in all but memory: the words read are the only way memory enters another field. -/
theorem completed_of_same_reads (h : ∀ a ∈ dataReads i s, m.get a = s.mem.get a) :
    completed i { s with mem := m } = { completed i s with mem := (completed i { s with mem := m }).mem } := by
  cases i
  case load x | add x | subtract x | jumpIndirect x => simp [completed, h x.toNat (by simp [dataReads])]
  case addIndirect x =>
    have hpointer : m.get x.toNat = s.mem.get x.toNat := h _ (by simp [dataReads])
    have hword : m.get (s.mem.get x.toNat).toNat = s.mem.get (s.mem.get x.toNat).toNat := h _ (by simp [dataReads])
    simp [completed, hpointer, hword]
  all_goals rfl

/-- A word on which the memories agreed: both runs leave it, or both write it the same value. -/
theorem completed_mem_get_of_agree {a : Nat} (h : m.get a = s.mem.get a) :
    (completed i { s with mem := m }).mem.get a = (completed i s).mem.get a := by
  cases i
  case store x | jumpAndStore x => simp [completed, Memory.get_set, h]
  all_goals exact h

end TwoRuns

end Sys2Proof.Machine

/-! ### The statements -/

namespace Sys2Proof.Proofs

open Sys2Proof.Machine

/-- Settles O27: a completed instruction has the write table, and a faulting one has written `MAR`, `RUN` and the record. -/
theorem registerFrame : Obligations.RegisterFrame := by
  intro i s t ht
  obtain ⟨-, rfl⟩ | ⟨r, -, rfl⟩ := eq_of_exec ht
  · refine ⟨completed_mbr i s, completed_ir i s, completed_mar i s, completed_ac s, completed_pc s, fun hin => ?_,
      fun hout => ?_, ?_, fun _ => ⟨completed_faultCause i s, completed_faultInfo i s, completed_faultKind i s⟩⟩
    · simp [completed_inReg, completed_inStream, completed_inputWait, hin]
    · simp [completed_outReg, completed_outTrace, hout]
    · by_cases hhalt : i.opcode = .halt <;> simp [completed_run, hhalt]
  · simp

/-- Settles O28: a completed instruction that does not store leaves memory, and so does a fault. -/
theorem nonStoringMemoryFrame : Obligations.NonStoringMemoryFrame :=
  fun _ _ _ hstore hjump ht _ => congrArg (Memory.get · _) (exec_mem hstore hjump ht)

/-- Settles O29: the direct address of both is the field, the one word either can write. -/
theorem storingMemoryFrame : Obligations.StoringMemoryFrame := by
  rintro x s t _ ht rfl
  rw [directAddress, latchField_mar, zext16_toNat]
  refine ⟨rfl, fun a ha => ?_⟩
  obtain ht | ht := ht
  · exact exec_mem_get (i := .store x) ha ht
  · exact exec_mem_get (i := .jumpAndStore x) ha ht

/-- Settles O30: Input takes the head of `IN`, if there is one; Output appends `AC`, which it has put in `OutREG`; neither
can fault, and a fault touches no port. -/
theorem portsMoveOneValue : Obligations.PortsMoveOneValue := by
  intro i s t ht
  obtain ⟨-, rfl⟩ | ⟨r, hr, rfl⟩ := eq_of_exec ht
  · refine ⟨fun hin => ?_, fun hin => ?_, fun hout => ?_, fun hout => ⟨s.ac, ?_, ?_⟩⟩
    · simp [completed_inStream, hin]
    · cases h : s.inStream <;> simp [completed_inStream, hin, h]
    · simp [completed_outTrace, hout]
    · simp [completed_outTrace, hout]
    · simp [completed_outReg, hout]
  · have hop := opcode_not_mem_of_accessFault hr
    exact ⟨fun _ => rfl, fun hin => absurd (by simp [hin]) hop, fun _ => rfl, fun hout => absurd (by simp [hout]) hop⟩

/-- Settles O31: with the same words read, both runs fault in the same access or both complete. -/
theorem onlyTheWordsReadMatter : Obligations.OnlyTheWordsReadMatter := by
  intro i s s' t hs hreads ht
  generalize s'.mem = m at hs hreads
  subst hs
  have hfault := accessFault_of_same_reads hreads
  obtain ⟨hnone, rfl⟩ | ⟨r, hsome, rfl⟩ := eq_of_exec ht
  · exact ⟨_, exec_of_completes (hfault.trans hnone), completed_of_same_reads hreads,
      fun a => completed_mem_get_of_agree⟩
  · exact ⟨_, exec_of_accessFault (hfault.trans hsome), rfl, fun a h => h⟩

end Sys2Proof.Proofs
end

section
/-! PROOFS. Memory (spec/20_memory.md section 1, spec/70_reset_and_hazards.md section 2): the two primitives, the word a
program load leaves at each address, and that a canonical memory is determined by what it reads. -/

namespace Sys2Proof.Machine

/-! ### The two primitives (R41, R42, R43) -/

theorem Memory.read?_eq_none {m : Memory} {a : Word} : m.read? a = none ↔ 512 ≤ a.toNat :=
  ⟨fun h => Nat.not_lt.mp fun ha => Option.some_ne_none _ ((m.read?_of_lt ha).symm.trans h),
    fun h => m.read?_of_not_lt (Nat.not_lt.mpr h)⟩

theorem Memory.write?_eq_none {m : Memory} {a v : Word} : m.write? a v = none ↔ 512 ≤ a.toNat :=
  ⟨fun h => Nat.not_lt.mp fun ha => Option.some_ne_none _ ((m.write?_of_lt v ha).symm.trans h),
    fun h => m.write?_of_not_lt v (Nat.not_lt.mpr h)⟩

theorem Memory.write?_eq_some {m n : Memory} {a v : Word} :
    m.write? a v = some n ↔ validAddress a ∧ m.set a.toNat v = n := by
  simp [Memory.write?]

theorem Memory.read?_write?_same {m n : Memory} {a v : Word} (h : m.write? a v = some n) : n.read? a = some v := by
  obtain ⟨ha, rfl⟩ := Memory.write?_eq_some.mp h
  rw [Memory.read?_of_lt _ ha, Memory.get_set_same]

theorem Memory.read?_write?_other {m n : Memory} {a v b : Word} (h : m.write? a v = some n) (hb : b ≠ a) :
    n.read? b = m.read? b := by
  obtain ⟨-, rfl⟩ := Memory.write?_eq_some.mp h
  rw [Memory.read?, Memory.read?, Memory.get_set_other _ _ (mt BitVec.eq_of_toNat_eq hb)]

/-! ### Program load (R212) -/

/-- A load replaces the words from `a` on, as many as the image has, and no other. -/
theorem Memory.get_load (image : List Word) (m : Memory) (a b : Nat) :
    (m.load a image).get b = if a ≤ b then image[b - a]?.getD (m.get b) else m.get b := by
  induction image generalizing m a with
  | nil => simp [Memory.load]
  | cons w ws ih =>
    rw [Memory.load, ih]
    obtain hlt | rfl | hgt := Nat.lt_trichotomy b a
    · have h1 : ¬a + 1 ≤ b := by omega
      have h2 : ¬a ≤ b := by omega
      rw [if_neg h1, if_neg h2, Memory.get_set_other _ _ (by omega)]
    · have h1 : ¬b + 1 ≤ b := by omega
      simp [h1]
    · have h1 : a + 1 ≤ b := by omega
      have h2 : a ≤ b := by omega
      have h3 : b - a = b - (a + 1) + 1 := by omega
      rw [if_pos h1, if_pos h2, h3, List.getElem?_cons_succ, Memory.get_set_other _ _ (by omega)]

theorem imageFits_iff {image : List Word} : imageFits image = true ↔ image.length ≤ 511 := by
  rw [imageFits, decide_eq_true_eq, Config.maxImageWords]

/-- A load into a core as reset left it succeeds exactly for an image that fits. -/
theorem load_reset_of_fits {image : List Word} (h : image.length ≤ 511) :
    State.load image State.reset = some { State.reset with mem := Memory.load [] 1 image } :=
  load_eq_some.mpr ⟨rfl, imageFits_iff.mpr h, rfl⟩

theorem load_of_not_fits {image : List Word} (s : State) (h : 511 < image.length) : s.load image = none := by
  refine if_neg fun hload => ?_
  have := imageFits_iff.mp hload.2
  omega

/-! ### The canonical form (log entry 7) -/

/-- No address up to the bound is listed. -/
theorem Memory.get_of_risesAbove {m : Memory} {a bound : Nat} (hm : m.risesAbove bound = true) (ha : a ≤ bound) :
    m.get a = Config.unwrittenWord := by
  induction m generalizing bound with
  | nil => rfl
  | cons c rest ih =>
    obtain ⟨b, v⟩ := c
    obtain ⟨hb, hrest⟩ : bound < b ∧ Memory.risesAbove b rest = true := by simpa [Memory.risesAbove] using hm
    rw [Memory.get_cons, if_neg (by omega), ih hrest (by omega)]

/-- The first cells of two memories that read the same have the same address: at the lower one, the other reads as
unwritten. -/
theorem Memory.head_le_of_get_eq {b c : Nat} {v w : Word} {m n : Memory} (hn : Memory.risesAbove c n = true)
    (hv : v ≠ Config.unwrittenWord) (h : ∀ a, Memory.get ((b, v) :: m) a = Memory.get ((c, w) :: n) a) : c ≤ b := by
  by_contra hlt
  have hb := h b
  rw [Memory.get_cons, if_pos rfl, Memory.get_cons, if_neg (by omega), Memory.get_of_risesAbove hn (by omega)] at hb
  exact hv hb

theorem Memory.eq_of_get_eq {m n : Memory} (hm : m.rises = true) (hn : n.rises = true)
    (hm' : ∀ c ∈ m, c.2 ≠ Config.unwrittenWord) (hn' : ∀ c ∈ n, c.2 ≠ Config.unwrittenWord)
    (h : ∀ a, m.get a = n.get a) : m = n := by
  induction m generalizing n with
  | nil =>
    cases n with
    | nil => rfl
    | cons c n =>
      have hc := h c.1
      rw [Memory.get_cons, if_pos rfl] at hc
      exact absurd hc.symm (hn' c List.mem_cons_self)
  | cons b m ih =>
    cases n with
    | nil =>
      have hb := h b.1
      rw [Memory.get_cons, if_pos rfl] at hb
      exact absurd hb (hm' b List.mem_cons_self)
    | cons c n =>
      obtain ⟨b, v⟩ := b
      obtain ⟨c, w⟩ := c
      obtain ⟨hv, hvs⟩ := List.forall_mem_cons.mp hm'
      obtain ⟨hw, hws⟩ := List.forall_mem_cons.mp hn'
      obtain rfl : b = c :=
        Nat.le_antisymm (Memory.head_le_of_get_eq hm hw fun a => (h a).symm) (Memory.head_le_of_get_eq hn hv h)
      obtain rfl : v = w := by simpa [Memory.get_cons] using h b
      have htail (a : Nat) : Memory.get m a = Memory.get n a := by
        by_cases ha : a = b
        · rw [Memory.get_of_risesAbove hm ha.le, Memory.get_of_risesAbove hn ha.le]
        · simpa [Memory.get_cons, ha] using h a
      rw [ih (Memory.rises_of_risesAbove m b hm) (Memory.rises_of_risesAbove n b hn) hvs hws htail]

theorem Memory.wf_iff {m : Memory} :
    m.wf = true ↔ m.rises = true ∧ (∀ c ∈ m, c.1 < Config.memWords) ∧ ∀ c ∈ m, c.2 ≠ Config.unwrittenWord := by
  simp only [Memory.wf, Bool.and_eq_true, List.all_eq_true, decide_eq_true_eq, forall_and]

end Sys2Proof.Machine

/-! ### The statements -/

namespace Sys2Proof.Proofs

open Sys2Proof.Machine

/-- Settles O32: both primitives check the address and then use the memory's laws of a read after a write. -/
theorem memoryPrimitives : Obligations.MemoryPrimitives := by
  refine ⟨fun m a v => ⟨Memory.read?_eq_none.symm, Memory.write?_eq_none.symm⟩, fun m n a v hw => ?_, fun a ha => ?_⟩
  · exact ⟨Memory.read?_write?_same hw, fun b => Memory.read?_write?_other hw, fun hm => Memory.wf_write? hm hw⟩
  · exact Memory.read?_of_lt _ ha

/-- Settles O46: a load writes the addresses from 1 up to the image's length, into a memory that reads 0. -/
theorem loadPlacesTheImage : Obligations.LoadPlacesTheImage := by
  refine fun image => ⟨fun hfits => ⟨_, load_reset_of_fits hfits, rfl, ?_, ?_, fun k w hk => ?_, fun a ha => ?_⟩,
    load_of_not_fits _⟩
  · exact Memory.wf_load image [] 1 (by rw [Config.memWords]; omega) rfl
  · exact Memory.get_load image [] 1 0
  · simp [Memory.get_load, hk]
  · have hpast : image[a - 1]? = none := List.getElem?_eq_none (by omega)
    have h1 : 1 ≤ a := by omega
    simp [Memory.get_load, h1, hpast, Config.unwrittenWord]

/-- Settles O50: the first cells agree, and then the rests read the same. -/
theorem canonicalMemoriesAreEqual : Obligations.CanonicalMemoriesAreEqual := by
  intro m n hm hn h
  obtain ⟨hm, -, hm'⟩ := Memory.wf_iff.mp hm
  obtain ⟨hn, -, hn'⟩ := Memory.wf_iff.mp hn
  exact Memory.eq_of_get_eq hm hn hm' hn' h

end Sys2Proof.Proofs
end

section
/-! PROOFS. The step on a fetched word (spec/40_cycle.md, spec/60_exceptions.md): an undefined opcode, an instruction that
completes, or the fault of an instruction's access. What the whole machine does is read off these three and the ways a step
goes without fetching a word. -/

namespace Sys2Proof

/-! ### Opcodes by their codes (R67) -/

theorem Opcode.code_toNat_inj {o p : Opcode} : o.code.toNat = p.code.toNat ↔ o = p := by
  refine ⟨fun h => Option.some.inj ?_, fun h => h ▸ rfl⟩
  rw [← Opcode.ofCode_code, ← Opcode.ofCode_code, BitVec.eq_of_toNat_eq h]

end Sys2Proof

namespace Sys2Proof.Machine

/-! ### Increments of `PC` that the spec defines (R16) -/

theorem pcSucc_of_valid {pc : Word} (h : validAddress pc) : pcSucc pc = pc + 1 :=
  pcSucc_of_lt (Nat.lt_trans h (by decide))

theorem toNat_succ_of_valid {pc : Word} (h : validAddress pc) : (pc + 1).toNat = pc.toNat + 1 := by
  have hpc : pc.toNat < 512 := h
  rw [BitVec.toNat_add]
  exact Nat.mod_eq_of_lt (Nat.lt_trans (Nat.succ_lt_succ hpc) (by decide))

theorem pcSucc_succ_of_valid {pc : Word} (h : validAddress pc) : pcSucc (pc + 1) = pc + 2 := by
  have hpc : pc.toNat < 512 := h
  rw [pcSucc_of_lt (by rw [toNat_succ_of_valid h]; omega), BitVec.add_assoc]
  rfl

/-! ### The step on a fetched word (R90) -/

theorem step_of_fetches {s : State} {w : Word} (h : s.fetches w) : step s = decodeAndExecute (fetched w s) := by
  obtain ⟨hs, hpc, rfl⟩ := h
  rw [step_of_fetching hs, fetch_of_valid s _ hpc]

theorem step_of_fetches_encode {s : State} {i : Instr} (h : s.fetches (encode i)) :
    step s = exec i (fetched (encode i) s) := by
  rw [step_of_fetches h, decodeAndExecute_of_instr (fetched_ir _ s) (decode_encode i)]

theorem step_of_fetches_undefined {s : State} {w : Word} (h : s.fetches w) (hcode : 13 ≤ (opcodeBits w).toNat) :
    step s = .next (raise (.illegalOpcode w) (latchField (fieldBits w) (fetched w s))) := by
  rw [step_of_fetches h, decodeAndExecute_of_undefined (fetched_ir w s) (decode_eq_undefinedOpcode.mpr hcode)]
  rfl

/-- Everything a step can leave that fetched the word `w`. -/
theorem eq_of_step_of_fetches {s t : State} {w : Word} (hs : s.fetches w) (ht : step s = .next t) :
    (13 ≤ (opcodeBits w).toNat ∧ t = raise (.illegalOpcode w) (latchField (fieldBits w) (fetched w s))) ∨
      (∃ i, w = encode i ∧ accessFault i (fetched w s) = none ∧ t = completed i (fetched w s)) ∨
      (∃ i r, w = encode i ∧ accessFault i (fetched w s) = some r ∧
        t = raise r (latchField i.field (fetched w s))) := by
  obtain ⟨i, rfl, -⟩ | ⟨hcode, -⟩ := decode_cases w
  · rw [step_of_fetches_encode hs] at ht
    obtain ⟨hf, rfl⟩ | ⟨r, hf, rfl⟩ := eq_of_exec ht
    · exact .inr (.inl ⟨i, rfl, hf, rfl⟩)
    · exact .inr (.inr ⟨i, r, rfl, hf, rfl⟩)
  · rw [step_of_fetches_undefined hs hcode] at ht
    exact .inl ⟨hcode, (Host.Outcome.next.inj ht).symm⟩

/-- The four ways of a step: a terminal state, a waiting Input, a fetch that fails, a fetch that reads a word. -/
theorem eq_of_step {s t : State} (ht : step s = .next t) :
    (s.run ≠ .running ∧ t = s) ∨
      (s.run = .running ∧ s.inputWait = true ∧ t = afterInput s) ∨
      (s.fetching ∧ ¬validAddress s.pc ∧ t = raise (.memBounds s.pc .fetch) { s with mar := s.pc }) ∨
      s.fetches (s.mem.get s.pc.toNat) := by
  have hnext {u : State} (h : step s = .next u) : t = u := Host.Outcome.next.inj (ht.symm.trans h)
  obtain ⟨hrun, h⟩ | ⟨hrun, hwait, h⟩ | ⟨hrun, hwait, hpc, h⟩ | ⟨hrun, hwait, hpc, -⟩ | ⟨hrun, hwait, hpc, -⟩ :=
    step_cases s
  · exact .inl ⟨hrun, hnext h⟩
  · exact .inr (.inl ⟨hrun, hwait, hnext (h.trans (takeInput_eq s))⟩)
  · exact .inr (.inr (.inl ⟨⟨hrun, hwait⟩, hpc, hnext h⟩))
  · exact .inr (.inr (.inr ⟨⟨hrun, hwait⟩, hpc, rfl⟩))
  · exact .inr (.inr (.inr ⟨⟨hrun, hwait⟩, hpc, rfl⟩))

/-- A wait that ends: the request that found nothing, made again with values at the port, is the request made with them at
once (R162). -/
theorem step_of_supplied {s : State} (v : Word) (rest : List Word) (hrun : s.run = .running) (hnil : s.inStream = []) :
    step { afterInput s with inStream := v :: rest } = .next (afterInput { s with inStream := v :: rest }) :=
  step_of_waiting (s := { afterInput s with inStream := v :: rest }) hrun (List.isEmpty_iff.mpr hnil)

/-- A completed instruction is no fault. -/
theorem completed_run_ne_faulted {i : Instr} {s : State} (h : s.run = .running) : (completed i s).run ≠ .faulted := by
  rw [completed_run]
  split <;> simp [h]

/-! ### The faults of the accesses (R98) -/

/-- A field of 512 or more faults every reading instruction in its first access. -/
theorem accessFault_of_reading {i : Instr} (s : State) (hcode : i.opcode.code.toNat ∈ [1, 3, 4, 11, 12])
    (h : 512 ≤ i.field.toNat) : accessFault i s = some (.memBounds (zext16 i.field) .read) := by
  cases i
  case load | add | subtract | jumpIndirect => exact boundsFault_zext16_of_le .read h
  case addIndirect x =>
    exact accessFault_addIndirect_eq_some.mpr (.inl ⟨mt validAddress_zext16.mp (Nat.not_lt.mpr h), rfl⟩)
  all_goals simp [Instr.opcode, Opcode.code] at hcode

/-- A field of 512 or more faults every storing instruction. -/
theorem accessFault_of_storing {i : Instr} (s : State) (hcode : i.opcode.code.toNat ∈ [0, 2])
    (h : 512 ≤ i.field.toNat) : accessFault i s = some (.memBounds (zext16 i.field) .write) := by
  cases i
  case store | jumpAndStore => exact boundsFault_zext16_of_le .write h
  all_goals simp [Instr.opcode, Opcode.code] at hcode

/-- A pointer of 512 or more faults AddIndirect in its second access. -/
theorem accessFault_of_pointer {i : Instr} {s : State} (hcode : i.opcode.code.toNat = 11) (h : i.field.toNat < 512)
    (hp : 512 ≤ (s.mem.get i.field.toNat).toNat) :
    accessFault i s = some (.memBounds (s.mem.get i.field.toNat) .read) := by
  cases i
  case addIndirect x =>
    exact accessFault_addIndirect_eq_some.mpr (.inr ⟨validAddress_zext16.mpr h, Nat.not_lt.mpr hp, rfl⟩)
  all_goals simp [Instr.opcode, Opcode.code] at hcode

/-- What the fault of an access is: MemBounds, at the field or (AddIndirect only) at a pointer. -/
theorem accessFault_eq_some {i : Instr} {s : State} {r : Raise} (h : accessFault i s = some r) :
    ∃ a kind, r = .memBounds a kind ∧ ¬validAddress a ∧
      (kind = .write ∧ a = zext16 i.field ∨ kind = .read ∧ (a = zext16 i.field ∨ i.opcode = .addIndirect)) := by
  cases i
  case load | add | subtract | jumpIndirect =>
    obtain ⟨hout, rfl⟩ := boundsFault_eq_some.mp h
    exact ⟨_, _, rfl, hout, .inr ⟨rfl, .inl rfl⟩⟩
  case store | jumpAndStore =>
    obtain ⟨hout, rfl⟩ := boundsFault_eq_some.mp h
    exact ⟨_, _, rfl, hout, .inl ⟨rfl, rfl⟩⟩
  case addIndirect =>
    obtain ⟨hout, rfl⟩ | ⟨-, hout, rfl⟩ := accessFault_addIndirect_eq_some.mp h
    · exact ⟨_, _, rfl, hout, .inr ⟨rfl, .inr rfl⟩⟩
    · exact ⟨_, _, rfl, hout, .inr ⟨rfl, .inr rfl⟩⟩
  all_goals cases h

/-! ### The fault record a step leaves (R24) -/

theorem recordMemBounds_of_fetch {s : State} (h : ¬validAddress s.pc) :
    (raise (.memBounds s.pc .fetch) { s with mar := s.pc }).recordMemBounds :=
  ⟨rfl, Nat.not_lt.mp h, nofun, fun _ => ⟨rfl, rfl⟩, nofun, nofun⟩

theorem recordIllegalOpcode_of_undefined {w : Word} (s : State) (h : 13 ≤ (opcodeBits w).toNat) :
    (raise (.illegalOpcode w) (latchField (fieldBits w) (fetched w s))).recordIllegalOpcode := ⟨rfl, rfl, rfl, h⟩

theorem recordMemBounds_of_accessFault {i : Instr} {s : State} {r : Raise}
    (h : accessFault i (fetched (encode i) s) = some r) :
    (raise r (latchField i.field (fetched (encode i) s))).recordMemBounds := by
  obtain ⟨a, kind, rfl, hout, ⟨rfl, rfl⟩ | ⟨rfl, hread⟩⟩ := accessFault_eq_some h
  · exact ⟨rfl, Nat.not_lt.mp hout, nofun, nofun, fun _ => rfl, nofun⟩
  · refine ⟨rfl, Nat.not_lt.mp hout, nofun, nofun, nofun, fun _ => hread.imp id fun hop => ?_⟩
    rw [raise_ir, latchField_ir, fetched_ir, opcodeBits_encode, hop]
    rfl

end Sys2Proof.Machine

/-! ### The statements -/

namespace Sys2Proof.Proofs

open Sys2Proof.Machine

/-- Settles O8: the state the fetch leaves, written out. -/
theorem stepRunsDecodedInstruction : Obligations.StepRunsDecodedInstruction := by
  intro s w i hs hw
  rw [← fetched_of_valid w hs.2.1, step_of_fetches hs, decodeAndExecute_of_instr (fetched_ir _ s) hw]

/-- Settles O10: a word of 0xD000 or more has a code of 13 or more. -/
theorem undefinedOpcodeFaults : Obligations.UndefinedOpcodeFaults := by
  intro s w hs hw
  have hcode : 13 ≤ (opcodeBits w).toNat := by rw [opcodeBits_toNat]; omega
  rw [step_of_fetches_undefined hs hcode, fetched_of_valid w hs.2.1]
  rfl

/-- Settles O33: a fault leaves the `PC` that the fetch left, and a completed instruction writes it by its opcode. -/
theorem pcAfterAStep : Obligations.PcAfterAStep := by
  intro s t w hs ht
  obtain ⟨⟨hrun, -⟩, hpc, -⟩ := id hs
  have hnext : pcSucc s.pc = s.pc + 1 := pcSucc_of_valid hpc
  obtain ⟨-, rfl⟩ | ⟨i, rfl, -, rfl⟩ | ⟨i, r, rfl, -, rfl⟩ := eq_of_step_of_fetches hs ht
  · exact ⟨fun _ => hnext, fun h => absurd rfl h⟩
  · refine ⟨fun h => absurd h (completed_run_ne_faulted hrun), fun _ => ?_⟩
    rw [opcodeBits_encode, fieldBits_encode]
    cases i
    case skipCond =>
      have hskip : pcSucc (s.pc + 1#16) = s.pc + 2#16 := pcSucc_succ_of_valid hpc
      simp [completed, Instr.opcode, Opcode.code, Instr.field, selBits_join, SkipSel.ofBits_bits, hskip, hnext]
    case jump | jumpIndirect | jumpAndStore => simp [completed, Instr.opcode, Opcode.code, Instr.field]
    all_goals simp [completed_pc, Instr.opcode, Opcode.code, hnext]
  · exact ⟨fun _ => hnext, fun h => absurd rfl h⟩

/-- Settles O34: the fault of the instruction that the word encodes, raised on the state the fetch left. -/
theorem stateAFaultLeaves : Obligations.StateAFaultLeaves := by
  intro s w hs
  obtain ⟨i, rfl, -⟩ | ⟨hcode, -⟩ := decode_cases w
  · have hstep {r : Raise} (h : accessFault i (fetched (encode i) s) = some r) :
        step s = .next (raise r (latchField i.field { s with
          mar := s.pc, mbr := encode i, ir := encode i, pc := s.pc + 1 })) := by
      rw [step_of_fetches_encode hs, exec_of_accessFault h, fetched_of_valid _ hs.2.1]
    rw [opcodeBits_encode, fieldBits_encode]
    exact ⟨fun hout hop => hstep (accessFault_of_reading _ hop hout),
      fun hout hop => hstep (accessFault_of_storing _ hop hout),
      fun hin hp hop => hstep (accessFault_of_pointer (s := fetched (encode i) s) hop hin hp)⟩
  · generalize (opcodeBits w).toNat = c at hcode
    refine ⟨fun _ hop => ?_, fun _ hop => ?_, fun _ _ hop => ?_⟩
    · simp only [List.mem_cons, List.not_mem_nil, or_false] at hop
      omega
    · simp only [List.mem_cons, List.not_mem_nil, or_false] at hop
      omega
    · omega

/-- Settles O35: a fault is raised before the writes of the instruction, after those of the fetch and the decode. -/
theorem faultsArePrecise : Obligations.FaultsArePrecise := by
  intro s t hrun ht hfault
  obtain ⟨hended, -⟩ | ⟨-, -, rfl⟩ | ⟨-, -, rfl⟩ | hs := eq_of_step ht
  · exact absurd hrun hended
  · cases hfault.symm.trans hrun
  · exact ⟨rfl, rfl, rfl, rfl, rfl, rfl, rfl⟩
  · obtain ⟨-, rfl⟩ | ⟨i, -, -, rfl⟩ | ⟨i, r, -, -, rfl⟩ := eq_of_step_of_fetches hs ht
    · exact ⟨rfl, rfl, rfl, rfl, rfl, rfl, rfl⟩
    · exact absurd hfault (completed_run_ne_faulted hrun)
    · exact ⟨rfl, rfl, rfl, rfl, rfl, rfl, rfl⟩

/-- Settles O36: of the ways a fetching core can step, one halts, one is IllegalOpcode, and the two other faults are
MemBounds. -/
theorem threeWaysToEnd : Obligations.ThreeWaysToEnd := by
  intro s t hs ht
  by_cases hpc : validAddress s.pc
  · have hfetches : s.fetches (s.mem.get s.pc.toNat) := ⟨hs, hpc, rfl⟩
    generalize s.mem.get s.pc.toNat = w at hfetches
    obtain ⟨hcode, rfl⟩ | ⟨i, rfl, hf, rfl⟩ | ⟨i, r, rfl, hf, rfl⟩ := eq_of_step_of_fetches hfetches ht
    · refine ⟨?_, ?_, fun _ => .inl (recordIllegalOpcode_of_undefined s hcode), fun h => absurd rfl h⟩
      · exact iff_of_false nofun fun h => by omega
      · exact iff_of_true ⟨rfl, rfl⟩ ⟨hpc, hcode⟩
    · have hrun := completed_run_ne_faulted (i := i) (s := fetched (encode i) s) hs.1
      have hcode := i.opcode.code_lt
      refine ⟨?_, ?_, fun h => absurd h hrun, fun _ => ?_⟩
      · have hhalt : i.opcode.code.toNat = 7 ↔ i.opcode = .halt := Opcode.code_toNat_inj (p := .halt)
        rw [opcodeBits_encode, hhalt, completed_run]
        simp [hpc, hs.1]
      · rw [opcodeBits_encode]
        exact iff_of_false (fun h => hrun h.1) fun h => by omega
      · simp
    · have hcode := i.opcode.code_lt
      have hhalt : i.opcode ≠ .halt := fun h => opcode_not_mem_of_accessFault hf (by simp [h])
      obtain ⟨a, kind, rfl, -, -⟩ := accessFault_eq_some hf
      refine ⟨?_, ?_, fun _ => .inr (recordMemBounds_of_accessFault hf), fun h => absurd rfl h⟩
      · rw [opcodeBits_encode]
        exact iff_of_false nofun fun h => hhalt (Opcode.code_toNat_inj.mp h.2)
      · rw [opcodeBits_encode]
        exact iff_of_false nofun fun h => by omega
  · rw [step_of_fetching_of_invalid hs hpc] at ht
    obtain rfl := Host.Outcome.next.inj ht
    refine ⟨?_, ?_, fun _ => .inr (recordMemBounds_of_fetch hpc), fun h => absurd rfl h⟩
    · exact iff_of_false nofun fun h => hpc h.1
    · exact iff_of_false nofun fun h => hpc h.1

/-- Settles O38: the zero word is JumpAndStore 0, and what it stores is the `PC` that the fetch left. -/
theorem zeroWordRestartsAtOne : Obligations.ZeroWordRestartsAtOne := by
  intro s hs
  have hstep : step s = exec (.jumpAndStore 0) (fetched 0 s) := step_of_fetches_encode (i := .jumpAndStore 0) hs
  refine ⟨s.mem.set 0 (s.pc + 1), ?_, Memory.get_set_same _ _ _, fun a ha => Memory.get_set_other _ _ ha⟩
  rw [hstep, exec_jumpAndStore_of_valid _ (by decide), fetched_of_valid 0 hs.2.1]
  rfl

/-- Settles O40: the store writes the word that the incremented `PC` names. -/
theorem fetchSeesTheStore : Obligations.FetchSeesTheStore := by
  intro s x hs hnext hx
  obtain ⟨hfetching, hpc, -⟩ := id hs
  have hpcx : (pcSucc s.pc).toNat = x.toNat := by rw [pcSucc_of_valid hpc, toNat_succ_of_valid hpc, hnext]
  refine ⟨_, (step_of_fetches_encode hs).trans (exec_store_of_valid _ (validAddress_zext16.mpr hx)),
    ⟨hfetching, ?_, ?_⟩, rfl⟩
  · exact hpcx.trans_lt hx
  · rw [fetched_pc, hpcx, Memory.get_set_same, fetched_ac]

/-- Settles O44: the waiting core differs from the one that finds a value in the flag alone, and taking a value clears it. -/
theorem waitingInputIsTransparent : Obligations.WaitingInputIsTransparent := by
  intro s t ign v rest hs hnil ht
  have hs' : ({ s with inStream := v :: rest } : State).fetches (encode (.input ign)) := hs
  rw [step_of_fetches_encode hs, exec_input] at ht
  obtain rfl := Host.Outcome.next.inj ht
  refine ⟨hs.1.1, ?_⟩
  rw [step_of_fetches_encode hs', exec_input]
  exact step_of_supplied (s := latchField ign (fetched _ s)) v rest hs.1.1 hnil

end Sys2Proof.Proofs
end

section
/-! PROOFS. The invariant of the step boundaries (spec/10_state.md section 8, spec/40_cycle.md section 2): it holds at reset,
every way of a step keeps it, and so does what the host does between steps. -/

namespace Sys2Proof.Machine

/-- A completed instruction keeps memory canonical: the one word a store writes exists. -/
theorem wf_completed {i : Instr} {s : State} (hf : accessFault i s = none) (h : s.mem.wf = true) :
    (completed i s).mem.wf = true := by
  cases i
  case store x | jumpAndStore x =>
    exact Memory.wf_set _ _ _ (validAddress_zext16.mp (boundsFault_eq_none.mp hf)) h
  all_goals exact h

/-- A completed instruction leaves a latched field and, where it halts or waits, a word that shows why. -/
theorem inv_completed {i : Instr} {s : State} (hs : s.Inv) (hfetching : s.fetching)
    (hf : accessFault i (fetched (encode i) s) = none) : (completed i (fetched (encode i) s)).Inv := by
  obtain ⟨hwf, ⟨hclear, -⟩, -, -⟩ := hs
  obtain ⟨hrun, hwait⟩ := hfetching
  have hrecord : s.recordClear := hclear (by simp [hrun])
  refine ⟨wf_completed hf hwf, ⟨fun _ => ?_, fun h => absurd h (completed_run_ne_faulted hrun)⟩, ⟨?_, fun _ => ?_⟩,
    fun hhalted => ?_, fun hwaits => ?_⟩
  · simpa [State.recordClear] using hrecord
  · simp
  · rw [completed_mar, completed_ir, fetched_ir, fieldBits_encode]
  · have hop : i.opcode = .halt := by
      by_contra hne
      simp [completed_run, hne, hrun] at hhalted
    rw [completed_ir, fetched_ir, opcodeBits_encode, hop]
    rfl
  · have hop : i.opcode = .input := by
      by_contra hne
      simp [completed_inputWait, hne, hwait] at hwaits
    rw [completed_ir, fetched_ir, opcodeBits_encode, hop, completed_run, hop]
    exact ⟨hrun, rfl⟩

/-- A faulted state keeps the invariant where its record is one of the two and its latches agree. -/
theorem inv_of_faulted {t : State} (hwf : t.mem.wf = true) (hrun : t.run = .faulted) (hwait : t.inputWait = false)
    (hrecord : t.recordIllegalOpcode ∨ t.recordMemBounds) (hmbr : t.mbr = t.ir)
    (hmar : t.faultKind ≠ .fetch → t.mar = zext16 (fieldBits t.ir)) : t.Inv :=
  ⟨hwf, ⟨fun h => absurd hrun h, fun _ => hrecord⟩, ⟨hmbr, fun h => hmar fun hkind => h ⟨hrun, hkind⟩⟩,
    fun h => (nomatch hrun.symm.trans h), fun h => (nomatch hwait.symm.trans h)⟩

/-- A request of the port by a waiting core writes nothing that the invariant reads but the flag. -/
theorem inv_afterInput {s : State} (hs : s.Inv) (hwait : s.inputWait = true) : (afterInput s).Inv := by
  obtain ⟨hwf, hrecord, hlatches, hhalted, hwaits⟩ := hs
  exact ⟨hwf, hrecord, hlatches, hhalted, fun _ => hwaits hwait⟩

theorem inv_of_step_of_fetches {s t : State} {w : Word} (hs : s.Inv) (hw : s.fetches w) (ht : step s = .next t) :
    t.Inv := by
  obtain ⟨hcode, rfl⟩ | ⟨i, rfl, hf, rfl⟩ | ⟨i, r, rfl, hf, rfl⟩ := eq_of_step_of_fetches hw ht
  · exact inv_of_faulted hs.1 rfl hw.1.2 (.inl (recordIllegalOpcode_of_undefined s hcode)) rfl fun _ => rfl
  · exact inv_completed hs hw.1 hf
  · refine inv_of_faulted hs.1 rfl hw.1.2 (.inr (recordMemBounds_of_accessFault hf)) rfl fun _ => ?_
    rw [raise_mar, latchField_mar, raise_ir, latchField_ir, fetched_ir, fieldBits_encode]

theorem inv_of_step {s t : State} (hs : s.Inv) (ht : step s = .next t) : t.Inv := by
  obtain ⟨-, rfl⟩ | ⟨-, hwait, rfl⟩ | ⟨hfetching, hpc, rfl⟩ | hw := eq_of_step ht
  · exact hs
  · exact inv_afterInput hs hwait
  · obtain ⟨hwf, -, ⟨hmbr, -⟩, -⟩ := hs
    exact inv_of_faulted hwf rfl hfetching.2 (.inr (recordMemBounds_of_fetch hpc)) hmbr fun h => absurd rfl h
  · exact inv_of_step_of_fetches hs hw ht

/-! ### The host between steps (R212, R220, R221) -/

/-- The zero word, which is what `IR` holds at reset, writes a return address that is not 0 (R147). -/
theorem completed_zeroWord_mem_ne_nil (w : Word) {s : State} (h : validAddress s.pc) :
    (completed (.jumpAndStore 0) (fetched w s)).mem ≠ [] := by
  intro hnil
  have hword : (completed (.jumpAndStore 0) (fetched w s)).mem.get 0 = s.pc + 1 :=
    (Memory.get_set_same _ _ _).trans (pcSucc_of_valid h)
  have hzero : (s.pc + 1).toNat = 0 := by rw [← hword, hnil]; rfl
  rw [toNat_succ_of_valid h] at hzero
  cases hzero

/-- A step never leaves a core as reset left it: a fault and a halt leave `RUN` ended, a wait leaves the Input word in `IR`,
and the one completed instruction whose word is `IR`'s reset value writes its return address to memory. -/
theorem not_freshlyReset_of_step {s t : State} (supplied : List Word) (hs : s.Inv) (ht : step s = .next t) :
    ¬State.freshlyReset { t with inStream := supplied } := by
  intro hreset
  have hrun : t.run = .running := (congrArg State.run hreset).symm
  have hir : t.ir = 0 := (congrArg State.ir hreset).symm
  have hmem : t.mem = [] := (congrArg State.mem hreset).symm
  obtain ⟨hended, rfl⟩ | ⟨-, hwait, rfl⟩ | ⟨-, -, rfl⟩ | hw := eq_of_step ht
  · exact hended hrun
  · obtain ⟨-, -, -, -, hwaits⟩ := hs
    have hcode := (hwaits hwait).2
    rw [show s.ir = 0 from hir] at hcode
    cases hcode
  · cases hrun
  · obtain ⟨-, rfl⟩ | ⟨i, hi, -, rfl⟩ | ⟨i, r, -, -, rfl⟩ := eq_of_step_of_fetches hw ht
    · cases hrun
    · rw [completed_ir, fetched_ir, hi] at hir
      obtain rfl : i = .jumpAndStore 0 := Decoded.instr.inj ((decode_encode i).symm.trans (congrArg decode hir))
      exact completed_zeroWord_mem_ne_nil _ hw.2.1 hmem
    · cases hrun

theorem load_eq_none {image : List Word} {s : State} (h : ¬s.freshlyReset) : s.load image = none :=
  if_neg fun hload => h hload.1

theorem memoryDump_isSome {s : State} : s.memoryDump.isSome = true ↔ s.ended := by
  unfold State.memoryDump State.ended
  cases s.run <;> simp

theorem memoryDump_eq_some {s : State} {words : List Word} (h : s.memoryDump = some words) :
    words = (List.range Config.memWords).map s.mem.get := by
  unfold State.memoryDump at h
  split at h
  · cases h
  · exact (Option.some.inj h).symm
  · exact (Option.some.inj h).symm

end Sys2Proof.Machine

/-! ### The statements -/

namespace Sys2Proof.Proofs

open Sys2Proof.Machine

/-- Settles O48: each of the ways of a step keeps it. -/
theorem stepKeepsTheInvariant : Obligations.StepKeepsTheInvariant := fun _ _ => inv_of_step

/-- Settles O45: the values of the reset state, field by field. -/
theorem resetLeaves : Obligations.ResetLeaves :=
  ⟨rfl, rfl, rfl, Memory.get_nil, ⟨rfl, rfl, rfl⟩, rfl, rfl, rfl, rfl, rfl, rfl⟩

/-- Settles O47: the record is clear, every register the invariant reads is 0, and nothing is halted or waits. -/
theorem invariantAtReset : Obligations.InvariantAtReset :=
  ⟨rfl, ⟨fun _ => ⟨rfl, rfl, rfl⟩, nofun⟩, ⟨rfl, fun _ => rfl⟩, nofun, nofun⟩

/-- Settles O49: the invariant does not read `IN`, and an image that fits ends inside memory. -/
theorem hostActionsKeepTheInvariant : Obligations.HostActionsKeepTheInvariant := by
  intro s t v image hs
  refine ⟨hs, fun hload => ?_⟩
  obtain ⟨-, hfits, rfl⟩ := load_eq_some.mp hload
  obtain ⟨hwf, hrest⟩ := hs
  have hlength : Config.loadBase + image.length ≤ Config.memWords := by
    have := imageFits_iff.mp hfits
    simp only [Config.loadBase, Config.memWords]
    omega
  exact ⟨Memory.wf_load image s.mem _ hlength hwf, hrest⟩

/-- Settles O53: a load recognises a core that no step has left by its reset values. -/
theorem hostWritesOnlyBeforeTheFirstStep : Obligations.HostWritesOnlyBeforeTheFirstStep := by
  refine ⟨fun s t image hload => ?_, fun s t supplied image hs ht => ?_, fun s image hended => ?_, fun s v => rfl⟩
  · obtain ⟨hreset, -, rfl⟩ := load_eq_some.mp hload
    exact ⟨hreset.symm, rfl⟩
  · exact load_eq_none (not_freshlyReset_of_step supplied hs ht)
  · refine load_eq_none fun hreset => ?_
    have hrun : s.run = .running := (congrArg State.run hreset).symm
    obtain h | h := hended
    · cases h.symm.trans hrun
    · cases h.symm.trans hrun

/-- Settles O51: the word is written where `PC` points, in a core that fetches, and decodes to its instruction. -/
theorem placedWordIsFetched : Obligations.PlacedWordIsFetched := by
  intro s i hpc
  have hword : BitVec.ofNat 16 ((encode i).toNat % 2 ^ 16) = encode i := by
    rw [Nat.mod_eq_of_lt (encode i).isLt, BitVec.ofNat_toNat, BitVec.setWidth_eq]
  refine ⟨⟨⟨rfl, rfl⟩, hpc, ?_⟩, ?_⟩
  · rw [State.withFetchWord, hword, Memory.write?_of_lt _ _ hpc, Option.getD_some, Memory.get_set_same]
  · rw [decodeTableWord, hword, decode_encode]

/-- Settles O52: `u16` reduces modulo 65536, and the signed reading shown is the library's. -/
theorem hostConversions : Obligations.HostConversions := by
  have hu16 (n : Int) : ((u16 n).toNat : Int) = n % 65536 := encodeWord_none_toNat n
  refine ⟨hu16, fun c => ?_, fun isAlpha v => ?_⟩
  · exact Int.ofNat.inj (hu16 c)
  · rw [showOutput, s16_eq_toInt]
    exact ⟨fun h => if_pos h, fun h => if_neg (by simp [h])⟩

/-- Settles O54: the two ended states give the same list, the words in the order of their addresses. -/
theorem memoryDumpAfterTheEnd : Obligations.MemoryDumpAfterTheEnd := by
  refine ⟨fun s => ?_, fun s words hwords => ?_⟩
  · rw [← memoryDump_isSome, Option.not_isSome_iff_eq_none]
  · rw [memoryDump_eq_some hwords]
    refine ⟨?_, fun a ha => ?_⟩
    · rw [List.length_map, List.length_range, Config.memWords]
    · rw [List.getElem?_map, Config.memWords, List.getElem?_range ha, Option.map_some]

end Sys2Proof.Proofs
end

section
/-! PROOFS. Laws of pairs of instructions (spec/42_arithmetic.md section 2, spec/41_load_store.md section 1,
spec/43_control.md section 1), of the ignored bits (spec/30_encoding.md section 4) and of the signed reading
(spec/42_arithmetic.md section 1). -/

namespace Sys2Proof.Machine

/-! ### The signed reading (R7, R121) -/

/-- The machine's sum and difference of two signed readings, as exact integers cut to 16 bits. -/
theorem addWords_eq_u16_s16 (v w : Word) : addWords v w = u16 (s16 v + s16 w) := by
  rw [s16_eq_toInt, s16_eq_toInt, u16_add, u16, u16, BitVec.ofInt_toInt, BitVec.ofInt_toInt, addWords]

theorem subWords_eq_u16_s16 (v w : Word) : subWords v w = u16 (s16 v - s16 w) := by
  rw [s16_eq_toInt, s16_eq_toInt, u16_sub, u16, u16, BitVec.ofInt_toInt, BitVec.ofInt_toInt, subWords]

/-- The signed reading of an integer cut to 16 bits is congruent to it modulo 65536. -/
theorem s16_u16 (n : Int) : ∃ k : Int, s16 (u16 n) = n + 65536 * k := by
  refine ⟨-((n + 32768) / 65536), ?_⟩
  have hu16 : ((u16 n).toNat : Int) = n % 65536 := encodeWord_none_toNat n
  unfold s16
  split <;> omega

theorem overflows_eq_true {n : Int} : overflows n = true ↔ n < -32768 ∨ 32767 < n := by simp [overflows]

theorem overflows_eq_false {n : Int} : overflows n = false ↔ -32768 ≤ n ∧ n ≤ 32767 := by
  rw [← Bool.not_eq_true, overflows_eq_true]
  omega

/-- An exact result that fits is read back as it is. -/
theorem s16_u16_of_fits {n : Int} (h : overflows n = false) : s16 (u16 n) = n := by
  obtain ⟨k, hk⟩ := s16_u16 n
  have hbounds := s16_bounds (u16 n)
  have hfits := overflows_eq_false.mp h
  omega

/-- One that is out by less than 65536 is off by exactly that. -/
theorem s16_u16_of_overflows {n : Int} (h : overflows n = true) (hlow : -65536 ≤ n) (hhigh : n ≤ 65535) :
    s16 (u16 n) = n - 65536 ∨ s16 (u16 n) = n + 65536 := by
  obtain ⟨k, hk⟩ := s16_u16 n
  have hbounds := s16_bounds (u16 n)
  have hout := overflows_eq_true.mp h
  omega

end Sys2Proof.Machine

/-! ### The statements -/

namespace Sys2Proof.Proofs

open Sys2Proof.Machine

/-- Settles O37: no handler of the five reads the ignored bits, so the completed states differ in `MAR` alone. -/
theorem ignoredBitsShowOnlyInMar : Obligations.IgnoredBitsShowOnlyInMar := by
  intro s t a b sel c d
  have hsame {i j : Instr} (hi : accessFault i s = none) (hj : accessFault j s = none)
      (h : completed j s = { completed i s with mar := zext16 j.field }) (ht : exec i s = .next t) :
      exec j s = .next { t with mar := zext16 j.field } := by
    rw [exec_of_completes hi] at ht
    rw [exec_of_completes hj, h, Host.Outcome.next.inj ht]
  exact ⟨hsame (i := .input a) (j := .input b) rfl rfl rfl, hsame (i := .output a) (j := .output b) rfl rfl rfl,
    hsame (i := .halt a) (j := .halt b) rfl rfl rfl, hsame (i := .clear a) (j := .clear b) rfl rfl rfl,
    hsame (i := .skipCond sel c) (j := .skipCond sel d) rfl rfl rfl⟩

/-- Settles O39: the Load reads the word that the Store set. -/
theorem loadAfterStore : Obligations.LoadAfterStore := by
  intro x s t u hx ht hword
  rw [exec_of_field_in_range (i := .store x) s nofun hx] at ht
  obtain rfl := Host.Outcome.next.inj ht
  exact ⟨_, exec_of_field_in_range (i := .load x) u nofun hx, hword.trans (Memory.get_set_same _ _ _)⟩

/-- Settles O41: none of the first instructions of the pairs writes memory, so both read the same word. -/
theorem arithmeticLaws : Obligations.ArithmeticLaws := by
  intro x ign s hx
  have hadd (s) := exec_of_field_in_range (i := .add x) s nofun hx
  have hsubtract (s) := exec_of_field_in_range (i := .subtract x) s nofun hx
  have hload := exec_of_field_in_range (i := .load x) s nofun hx
  refine ⟨⟨_, _, hadd s, hsubtract _, ?_⟩, ⟨_, _, _, exec_clear ign s, hadd _, hload, ?_⟩,
    ⟨_, _, hload, hsubtract _, ?_⟩⟩
  · exact BitVec.add_sub_cancel s.ac (s.mem.get x.toNat)
  · exact BitVec.zero_add (s.mem.get x.toNat)
  · exact BitVec.sub_self (s.mem.get x.toNat)

/-- Settles O42: the machine's result is congruent to the exact one modulo 65536, and the exact one is out by less. -/
theorem signedArithmeticWraps : Obligations.SignedArithmeticWraps := by
  intro x y
  obtain ⟨hx, hx'⟩ := s16_bounds x
  obtain ⟨hy, hy'⟩ := s16_bounds y
  rw [addWords_eq_u16_s16, subWords_eq_u16_s16]
  exact ⟨s16_u16_of_fits, fun h => s16_u16_of_overflows h (by omega) (by omega), s16_u16_of_fits,
    fun h => s16_u16_of_overflows h (by omega) (by omega)⟩

/-- Settles O43: the slot holds the `PC` of the call until another call sets it. -/
theorem callAndReturn : Obligations.CallAndReturn := by
  intro x s t u hx ht
  rw [exec_of_field_in_range (i := .jumpAndStore x) s nofun hx] at ht
  obtain rfl := Host.Outcome.next.inj ht
  refine ⟨rfl, ?_, fun hslot => ⟨_, exec_of_field_in_range (i := .jumpIndirect x) u nofun hx, ?_, rfl⟩,
    ⟨_, exec_of_field_in_range (i := .jumpAndStore x) u nofun hx, Memory.get_set_same _ _ _⟩⟩
  · exact (toNat_succ_of_valid (validAddress_zext16.mpr hx)).trans (congrArg (· + 1) (zext16_toNat x))
  · exact hslot.trans (Memory.get_set_same _ _ _)

end Sys2Proof.Proofs
end
